-- ==== Sys2Proof/Word.lean ====
section
/-! DEFINITION. The bit-vector types of the block: bytes, 16-bit words, 12-bit addresses (R9, R91). -/

namespace Sys2Proof

/-- A byte: register contents, memory cells, timers, immediates (R9). -/
abbrev Byte := BitVec 8

/-- A 16-bit word: the instruction word, PC, I and stack entries (R9, R90). -/
abbrev Word := BitVec 16

/-- The 12-bit immediate address field `nnn` (R91). -/
abbrev Addr12 := BitVec 12

/-- A register index, the value of a 4-bit field x or y (R21, R91). -/
abbrev RegIdx := Fin 16

/-- The flag register VF (R22). -/
abbrev vf : RegIdx := 15

end Sys2Proof
end

