-- ==== Sys2Proof/Machine/Flags.lean ====
section
/-! DEFINITION. Every value an instruction writes to VF as a flag (R22): 0 or 1, never anything else. -/

namespace Sys2Proof.Machine

/-- A flag as a byte: 1 when it holds, 0 when it does not (R22). -/
def flagByte (b : Bool) : Byte := if b then 1 else 0

/-- ADD Vx,Vy: the unsigned sum exceeds 255 (R157). -/
def carryFlag (a b : Byte) : Byte := flagByte (decide (a.toNat + b.toNat > 255))

/-- SUB and SUBN, no borrow: the minuend is strictly greater than the subtrahend (R158, R160, I9). -/
def noBorrowFlag (minuend subtrahend : Byte) : Byte := flagByte (decide (minuend.toNat > subtrahend.toNat))

/-- SHR: the bit shifted out, bit 0 (R159). -/
def lowBitFlag (a : Byte) : Byte := a &&& 1

/-- SHL: the bit shifted out, bit 7 (R161). -/
def highBitFlag (a : Byte) : Byte := a >>> 7

end Sys2Proof.Machine
end

