-- ==== Sys2Proof/Config.lean ====
section
/-! DEFINITION. What is fixed for one block: the parameters of R8, the default GLYPH_TABLE of R71, and the free value
behind RND (R162, R287). -/

namespace Sys2Proof.Config

/-- MEM_SIZE (R8): addresses 0x000 to 0xFFF. -/
abbrev memSize : Nat := 4096

/-- GLYPH_SIZE (R8): the glyph table is the 80 bytes from address 0. -/
abbrev glyphSize : Nat := 80

/-- PROG_BASE (R8): the first ROM byte, and PC after a load (R322). -/
abbrev progBase : Nat := 0x200

/-- MAX_ROM (R8): the most bytes a ROM may have. -/
abbrev maxRom : Nat := memSize - progBase

/-- The glyphs 0 to 7 of the default table of R71, five bytes each, top row first. -/
def glyphs0to7 : List Byte :=
  [0xF0, 0x90, 0x90, 0x90, 0xF0,
   0x20, 0x60, 0x20, 0x20, 0x70,
   0xF0, 0x10, 0xF0, 0x80, 0xF0,
   0xF0, 0x10, 0xF0, 0x10, 0xF0,
   0x90, 0x90, 0xF0, 0x10, 0x10,
   0xF0, 0x80, 0xF0, 0x10, 0xF0,
   0xF0, 0x80, 0xF0, 0x90, 0xF0,
   0xF0, 0x10, 0x20, 0x40, 0x40]

/-- The glyphs 8 to F of the default table of R71. -/
def glyphs8toF : List Byte :=
  [0xF0, 0x90, 0xF0, 0x90, 0xF0,
   0xF0, 0x90, 0xF0, 0x10, 0xF0,
   0xF0, 0x90, 0xF0, 0x90, 0x90,
   0xE0, 0x90, 0xE0, 0x90, 0xE0,
   0xF0, 0x80, 0x80, 0x80, 0xF0,
   0xE0, 0x90, 0x90, 0x90, 0xE0,
   0xF0, 0x80, 0xF0, 0x80, 0xF0,
   0xF0, 0x80, 0xF0, 0x80, 0x80]

/-- The default of the parameter GLYPH_TABLE (R71, D12). PRESUMED: the spec takes these bytes from general knowledge;
unsafe for a claim that reads them (log 3). Only `State.reset` uses it: every other definition takes the table from
`Memory.glyphs`, so a claim over all states holds for every table. -/
def glyphTable : Vector Byte glyphSize :=
  ⟨(glyphs0to7 ++ glyphs8toF).toArray, rfl⟩

/-- The byte the random-byte provider answers at its `k`-th draw when nothing was injected: a free value, under no law
(R287, I1, D28). It has no body, so nothing can be proved of it (log 2). -/
opaque randomByte : Nat → Byte

end Sys2Proof.Config
end

