-- ==== Sys2Proof/Syntax.lean ====
section
/-! DEFINITION. The instruction set: one constructor per row of spec/opcode_table.json, in the table's order (R94). -/

namespace Sys2Proof

/-- The 34 instructions of R94. `x` and `y` name registers, `kk` is the immediate byte, `nnn` the 12-bit address, `n` the
sprite's row count (R13, R91). SHR and SHL keep the y field they ignore (R97), so that no bit of a word is lost. -/
inductive Instr where
  | cls                               -- 00E0  CLS            R220
  | ret                               -- 00EE  RET            R121
  | jp (nnn : Addr12)                 -- 1nnn  JP nnn         R122
  | call (nnn : Addr12)               -- 2nnn  CALL nnn       R123
  | seImm (x : RegIdx) (kk : Byte)    -- 3xkk  SE Vx,kk       R124
  | sneImm (x : RegIdx) (kk : Byte)   -- 4xkk  SNE Vx,kk      R125
  | seReg (x y : RegIdx)              -- 5xy0  SE Vx,Vy       R126
  | ldImm (x : RegIdx) (kk : Byte)    -- 6xkk  LD Vx,kk       R151
  | addImm (x : RegIdx) (kk : Byte)   -- 7xkk  ADD Vx,kk      R152
  | ldReg (x y : RegIdx)              -- 8xy0  LD Vx,Vy       R153
  | orReg (x y : RegIdx)              -- 8xy1  OR Vx,Vy       R154
  | andReg (x y : RegIdx)             -- 8xy2  AND Vx,Vy      R155
  | xorReg (x y : RegIdx)             -- 8xy3  XOR Vx,Vy      R156
  | addReg (x y : RegIdx)             -- 8xy4  ADD Vx,Vy      R157
  | subReg (x y : RegIdx)             -- 8xy5  SUB Vx,Vy      R158
  | shr (x y : RegIdx)                -- 8xy6  SHR Vx         R159
  | subnReg (x y : RegIdx)            -- 8xy7  SUBN Vx,Vy     R160
  | shl (x y : RegIdx)                -- 8xyE  SHL Vx         R161
  | sneReg (x y : RegIdx)             -- 9xy0  SNE Vx,Vy      R127
  | ldI (nnn : Addr12)                -- Annn  LD I,nnn       R190
  | jpV0 (nnn : Addr12)               -- Bnnn  JP V0,nnn      R128
  | rnd (x : RegIdx) (kk : Byte)      -- Cxkk  RND Vx,kk      R162
  | drw (x y : RegIdx) (n : Nat)      -- Dxyn  DRW Vx,Vy,n    R221
  | skp (x : RegIdx)                  -- Ex9E  SKP Vx         R240
  | sknp (x : RegIdx)                 -- ExA1  SKNP Vx        R241
  | ldVxDt (x : RegIdx)               -- Fx07  LD Vx,DT       R242
  | ldVxK (x : RegIdx)                -- Fx0A  LD Vx,K        R243
  | ldDtVx (x : RegIdx)               -- Fx15  LD DT,Vx       R244
  | ldStVx (x : RegIdx)               -- Fx18  LD ST,Vx       R245
  | addI (x : RegIdx)                 -- Fx1E  ADD I,Vx       R191
  | ldF (x : RegIdx)                  -- Fx29  LD F,Vx        R192
  | ldB (x : RegIdx)                  -- Fx33  LD B,Vx        R193
  | storeRegs (x : RegIdx)            -- Fx55  LD [I],Vx      R194
  | loadRegs (x : RegIdx)             -- Fx65  LD Vx,[I]      R195
deriving DecidableEq, Repr

end Sys2Proof
end

