-- ==== Sys2Proof/Decode.lean ====
section
/-! DEFINITION. Decoding (R90 to R97): the fields of a word, the opcode table of R94 as rows of mask and match, the
decoder by exact match (R95), total on any bytes; then the encoder, the word each instruction has by the same table. -/

namespace Sys2Proof

/-- The x field w[11:8] (R91). -/
def xField (w : Word) : RegIdx := (w.extractLsb' 8 4).toFin

/-- The y field w[7:4] (R91). -/
def yField (w : Word) : RegIdx := (w.extractLsb' 4 4).toFin

/-- The n field w[3:0], an unsigned count (R91, R93). -/
def nField (w : Word) : Nat := (w.extractLsb' 0 4).toNat

/-- The kk field w[7:0] (R91). -/
def kkField (w : Word) : Byte := w.extractLsb' 0 8

/-- The nnn field w[11:0] (R91). -/
def nnnField (w : Word) : Addr12 := w.extractLsb' 0 12

/-- One row of the opcode table: a word `w` selects it iff `w &&& mask = pattern`; `build` reads the operands (R95). -/
structure Row where
  pattern : Word
  mask : Word
  build : Word → Instr

/-- The rows 1 to 9 of R94: op 0 to 7. -/
def rows0to7 : List Row :=
  [⟨0x00E0, 0xFFFF, fun _ => .cls⟩,
   ⟨0x00EE, 0xFFFF, fun _ => .ret⟩,
   ⟨0x1000, 0xF000, fun w => .jp (nnnField w)⟩,
   ⟨0x2000, 0xF000, fun w => .call (nnnField w)⟩,
   ⟨0x3000, 0xF000, fun w => .seImm (xField w) (kkField w)⟩,
   ⟨0x4000, 0xF000, fun w => .sneImm (xField w) (kkField w)⟩,
   ⟨0x5000, 0xF00F, fun w => .seReg (xField w) (yField w)⟩,
   ⟨0x6000, 0xF000, fun w => .ldImm (xField w) (kkField w)⟩,
   ⟨0x7000, 0xF000, fun w => .addImm (xField w) (kkField w)⟩]

/-- The rows 10 to 18 of R94: op 8, the register operations. -/
def rows8 : List Row :=
  [⟨0x8000, 0xF00F, fun w => .ldReg (xField w) (yField w)⟩,
   ⟨0x8001, 0xF00F, fun w => .orReg (xField w) (yField w)⟩,
   ⟨0x8002, 0xF00F, fun w => .andReg (xField w) (yField w)⟩,
   ⟨0x8003, 0xF00F, fun w => .xorReg (xField w) (yField w)⟩,
   ⟨0x8004, 0xF00F, fun w => .addReg (xField w) (yField w)⟩,
   ⟨0x8005, 0xF00F, fun w => .subReg (xField w) (yField w)⟩,
   ⟨0x8006, 0xF00F, fun w => .shr (xField w) (yField w)⟩,
   ⟨0x8007, 0xF00F, fun w => .subnReg (xField w) (yField w)⟩,
   ⟨0x800E, 0xF00F, fun w => .shl (xField w) (yField w)⟩]

/-- The rows 19 to 25 of R94: op 9 to E. -/
def rows9toE : List Row :=
  [⟨0x9000, 0xF00F, fun w => .sneReg (xField w) (yField w)⟩,
   ⟨0xA000, 0xF000, fun w => .ldI (nnnField w)⟩,
   ⟨0xB000, 0xF000, fun w => .jpV0 (nnnField w)⟩,
   ⟨0xC000, 0xF000, fun w => .rnd (xField w) (kkField w)⟩,
   ⟨0xD000, 0xF000, fun w => .drw (xField w) (yField w) (nField w)⟩,
   ⟨0xE09E, 0xF0FF, fun w => .skp (xField w)⟩,
   ⟨0xE0A1, 0xF0FF, fun w => .sknp (xField w)⟩]

/-- The rows 26 to 34 of R94: op F. -/
def rowsF : List Row :=
  [⟨0xF007, 0xF0FF, fun w => .ldVxDt (xField w)⟩,
   ⟨0xF00A, 0xF0FF, fun w => .ldVxK (xField w)⟩,
   ⟨0xF015, 0xF0FF, fun w => .ldDtVx (xField w)⟩,
   ⟨0xF018, 0xF0FF, fun w => .ldStVx (xField w)⟩,
   ⟨0xF01E, 0xF0FF, fun w => .addI (xField w)⟩,
   ⟨0xF029, 0xF0FF, fun w => .ldF (xField w)⟩,
   ⟨0xF033, 0xF0FF, fun w => .ldB (xField w)⟩,
   ⟨0xF055, 0xF0FF, fun w => .storeRegs (xField w)⟩,
   ⟨0xF065, 0xF0FF, fun w => .loadRegs (xField w)⟩]

/-- The complete opcode table of R94. PRESUMED by the spec itself: the bit patterns are the standard CHIP-8 assignment,
which the source confirms for the words 6005, A0FF and D005 only (log 8). -/
def opcodeTable : List Row := rows0to7 ++ rows8 ++ rows9toE ++ rowsF

/-- The result of decoding a word: one of the 34 instructions, or Unknown (R95). -/
inductive Decoded where
  | instr (i : Instr)
  | unknown
deriving DecidableEq, Repr

/-- A word selects a row by exact match of the row's fixed bits (R95, D6). -/
def Row.selects (r : Row) (w : Word) : Bool := w &&& r.mask == r.pattern

/-- The decoder: a total function from words to an instruction or Unknown (R95, R96). -/
def decode (w : Word) : Decoded :=
  match opcodeTable.find? (fun r => r.selects w) with
  | some r => .instr (r.build w)
  | none => .unknown

/-- The instruction word of two bytes, the first the high byte (R63, R64). -/
def wordOfBytes (hi lo : Byte) : Word := hi ++ lo

/-- What decoding a byte string can answer. -/
inductive DecodedBytes where
  /-- An instruction, and the bytes after it. -/
  | instr (i : Instr) (rest : List Byte)
  /-- The first two bytes are an unknown opcode (R96). -/
  | unknown (w : Word)
  /-- Fewer than the two bytes every instruction has (R90). -/
  | truncated
deriving DecidableEq, Repr

/-- The decoder on any bytes: it always consumes exactly two (R90). -/
def decodeBytes : List Byte → DecodedBytes
  | hi :: lo :: rest =>
    match decode (wordOfBytes hi lo) with
    | .instr i => .instr i rest
    | .unknown => .unknown (wordOfBytes hi lo)
  | _ => .truncated

/-- Format NNN (R92): op, nnn. -/
def formatNNN (op : BitVec 4) (nnn : Addr12) : Word := op ++ nnn

/-- Format XKK (R92): op, x, kk. -/
def formatXKK (op : BitVec 4) (x : RegIdx) (kk : Byte) : Word := op ++ BitVec.ofFin (w := 4) x ++ kk

/-- Format XY (R92): op, x, y and a 4-bit function code. -/
def formatXY (op : BitVec 4) (x y : RegIdx) (sub : BitVec 4) : Word :=
  op ++ BitVec.ofFin (w := 4) x ++ BitVec.ofFin (w := 4) y ++ sub

/-- Format XYN (R92): op, x, y, n. -/
def formatXYN (op : BitVec 4) (x y : RegIdx) (n : Nat) : Word := formatXY op x y (BitVec.ofNat 4 n)

/-- Format X (R92): op, x and an 8-bit function code. -/
def formatX (op : BitVec 4) (x : RegIdx) (sub : Byte) : Word := op ++ BitVec.ofFin (w := 4) x ++ sub

/-- The word of an instruction, from the encodings of R94. -/
def encode : Instr → Word
  | .cls => 0x00E0
  | .ret => 0x00EE
  | .jp nnn => formatNNN 0x1 nnn
  | .call nnn => formatNNN 0x2 nnn
  | .seImm x kk => formatXKK 0x3 x kk
  | .sneImm x kk => formatXKK 0x4 x kk
  | .seReg x y => formatXY 0x5 x y 0x0
  | .ldImm x kk => formatXKK 0x6 x kk
  | .addImm x kk => formatXKK 0x7 x kk
  | .ldReg x y => formatXY 0x8 x y 0x0
  | .orReg x y => formatXY 0x8 x y 0x1
  | .andReg x y => formatXY 0x8 x y 0x2
  | .xorReg x y => formatXY 0x8 x y 0x3
  | .addReg x y => formatXY 0x8 x y 0x4
  | .subReg x y => formatXY 0x8 x y 0x5
  | .shr x y => formatXY 0x8 x y 0x6
  | .subnReg x y => formatXY 0x8 x y 0x7
  | .shl x y => formatXY 0x8 x y 0xE
  | .sneReg x y => formatXY 0x9 x y 0x0
  | .ldI nnn => formatNNN 0xA nnn
  | .jpV0 nnn => formatNNN 0xB nnn
  | .rnd x kk => formatXKK 0xC x kk
  | .drw x y n => formatXYN 0xD x y n
  | .skp x => formatX 0xE x 0x9E
  | .sknp x => formatX 0xE x 0xA1
  | .ldVxDt x => formatX 0xF x 0x07
  | .ldVxK x => formatX 0xF x 0x0A
  | .ldDtVx x => formatX 0xF x 0x15
  | .ldStVx x => formatX 0xF x 0x18
  | .addI x => formatX 0xF x 0x1E
  | .ldF x => formatX 0xF x 0x29
  | .ldB x => formatX 0xF x 0x33
  | .storeRegs x => formatX 0xF x 0x55
  | .loadRegs x => formatX 0xF x 0x65

/-- The bytes of an instruction as memory holds them, high byte first (R64). -/
def encodeBytes (i : Instr) : List Byte := [(encode i).extractLsb' 8 8, (encode i).extractLsb' 0 8]

/-- The first word of an instruction whose bits are `w`, `nbits` of them given and every bit above them 0. -/
def tableWord (nbits w : Nat) : Word := BitVec.ofNat 16 (w % 2 ^ nbits)

/-- The instruction the decoder reads from a word of the opcode table: the word laid out as memory holds it, high byte
first (R64), and given to the byte decoder. -/
def decodeTableWord (nbits w : Nat) : Option Instr :=
  let v := tableWord nbits w
  match decodeBytes [v.extractLsb' 8 8, v.extractLsb' 0 8] with
  | .instr i _ => some i
  | .unknown _ | .truncated => none

end Sys2Proof
end

