-- ==== Sys2Proof/Machine/State.lean ====
section
/-! DEFINITION. The state of the block as plain data: the record of R20, and beside it the parameters and inputs that the
spec keeps outside the record (R34) and the model carries as data. -/

namespace Sys2Proof.Machine

/-- The error causes, in the spec's order 0 to 5 (R271, D29). -/
inductive Cause where
  /-- 0: result of `load` only, never a Status (R32, R72). -/
  | loadTooLarge
  /-- 1: a fetch, a sprite, a BCD store or a block move reaches address 4096 or above (R61, R62, R63). -/
  | outOfBounds
  /-- 2: the fetched word matches no row (R96). -/
  | unknownOpcode
  /-- 3: CALL with 16 entries on the stack (R27). -/
  | stackOverflow
  /-- 4: RET with an empty stack (R27). -/
  | stackUnderflow
  /-- 5: SKP or SKNP with a register above 15 (R246, D19). -/
  | badKeyIndex
deriving DecidableEq, Repr

/-- The run status (R32). -/
inductive Status where
  | running
  | halted (c : Cause)
deriving DecidableEq, Repr

/-- MemoryImage (R33, R60): the bytes that differ from the contents after an empty load, as cells in rising order of
address, and the 80 bytes of the parameter GLYPH_TABLE, which that load puts at 0x000 (R71, R72). `Memory.wf` in Ops.lean
is the canonical form. The table is the model's own field: a parameter, changed by nothing (R34; log 3). -/
structure Memory where
  glyphs : Vector Byte Config.glyphSize
  cells : List Host.Cell
deriving DecidableEq, Repr

/-- The framebuffer (R31): 32 rows of 64 one-bit pixels; the pixel of column x is bit x of its row's word (log 20). -/
structure Framebuffer where
  rows : Vector (BitVec 64) 32
deriving DecidableEq, Repr

/-- A host transaction that changes the block's state, other than `step()` (R7, R291). -/
inductive HostMove where
  | load (bytes : List Byte)
  | tickTimers
  | setKeyDown (k : Nat)
  | setKeyUp (k : Nat)
deriving DecidableEq, Repr

/-- The state. From `mem` to `status` it is the record of R20; the other fields are the model's own (logs 1, 2, 5). -/
structure State where
  /-- `Mem` (R33). -/
  mem : Memory
  /-- `V0`..`VF` (R21); VF is register 15 (R22). -/
  v : Vector Byte 16
  /-- `I` (R23). -/
  i : Word
  /-- `PC` (R24). -/
  pc : Word
  /-- `Stack[0..15]` (R26). -/
  stack : Vector Word 16
  /-- `SP`, 0..16 (R26). -/
  sp : Fin 17
  /-- `DT` (R29). -/
  dt : Byte
  /-- `ST` (R29). -/
  st : Byte
  /-- `Keys`: bit i is 1 when key i is down (R30). -/
  keys : BitVec 16
  /-- `FB` (R31). -/
  fb : Framebuffer
  /-- `Status` (R32). -/
  status : Status
  /-- Whether a successful `load` has happened (R323, I13); the model's own field (log 5). -/
  loaded : Bool
  /-- The bytes an injected random-byte provider still has ready (R287); the model's own field (log 2). -/
  provided : List Byte
  /-- How many random bytes have been drawn: the argument of `Config.randomByte` (R287); the model's own field (log 2). -/
  draws : Nat
  /-- What the host does before each coming step, one group a step (R7, D27); the model's own field (log 1). -/
  schedule : List (List HostMove)
deriving DecidableEq, Repr

/-- The reasons for a fault. There is none: every runtime error of this block is a Halt, a next state whose Status holds
the cause (R270, R272; log 6). -/
inductive Fault where
deriving DecidableEq, Repr

/-- The reasons for a refusal. -/
inductive Refusal where
  /-- Raised by `exec` for an instruction without a meaning (none is left); safe. -/
  | notModelled (mnemonic : String)
  /-- Raised by `step` on a block that has never loaded a ROM: "outside this spec, and a model refuses it" (R323, D26);
  safe. -/
  | neverLoaded
deriving DecidableEq, Repr

/-- A framebuffer with every pixel dark (R31). -/
def Framebuffer.blank : Framebuffer := ⟨Vector.replicate 32 0⟩

/-- The state after a successful load of a ROM with no bytes, under the glyph table `g` (R72, R321). -/
def State.resetWith (g : Vector Byte Config.glyphSize) : State where
  mem := ⟨g, []⟩
  v := Vector.replicate 16 0
  i := 0
  pc := BitVec.ofNat 16 Config.progBase
  stack := Vector.replicate 16 0
  sp := 0
  dt := 0
  st := 0
  keys := 0
  fb := Framebuffer.blank
  status := .running
  loaded := true
  provided := []
  draws := 0
  schedule := []

/-- The machine right after reset: R321 with a ROM of no bytes (log 4) and the default glyph table (log 3). -/
def State.reset : State := State.resetWith Config.glyphTable

end Sys2Proof.Machine
end

