-- ==== Sys2Proof/Machine/Ops.lean ====
section
/-! DEFINITION. The named operations over memory, registers, stack, framebuffer and keypad (R10), the outcomes of an
instruction (R120), and the one operation that takes an error: Halt entry (R272). -/

namespace Sys2Proof.Machine

/-- The type of a meaning's answer. -/
abbrev Out := Host.Outcome State Fault Refusal

/-! ### Memory -/

/-- What an address with no cell reads as: the contents after an empty load, the glyph table at 0x000..0x04F and 0x00
above it (R69, R321, D13). -/
def Memory.unlisted (m : Memory) (a : Nat) : Byte := if h : a < Config.glyphSize then m.glyphs[a] else 0

/-- The byte the cells list at an address. -/
def lookupCell (a : Nat) : List Host.Cell → Option Byte
  | [] => none
  | c :: cs => if c.1 = a then some c.2 else lookupCell a cs

/-- The byte at an address: the last value written, or what an unlisted address reads as (R67). -/
def Memory.read (m : Memory) (a : Nat) : Byte := (lookupCell a m.cells).getD (m.unlisted a)

/-- The cells without the one at an address. -/
def eraseCell (a : Nat) : List Host.Cell → List Host.Cell
  | [] => []
  | c :: cs => if c.1 = a then cs else c :: eraseCell a cs

/-- Puts a cell into cells of rising addresses, in its place, instead of the one at its address. -/
def insertCell (a : Nat) (b : Byte) : List Host.Cell → List Host.Cell
  | [] => [(a, b)]
  | c :: cs => if a < c.1 then (a, b) :: c :: cs else if c.1 = a then (a, b) :: cs else c :: insertCell a b cs

/-- Writes one byte and keeps the canonical form; an address outside the memory has no byte to write. -/
def Memory.write (m : Memory) (a : Nat) (b : Byte) : Memory :=
  if a < Config.memSize then
    { m with cells := if b = m.unlisted a then eraseCell a m.cells else insertCell a b m.cells }
  else m

/-- Addresses strictly rise along the cells. -/
def risingCells : List Host.Cell → Bool
  | [] => true
  | c :: cs => cs.all (fun d => decide (c.1 < d.1)) && risingCells cs

/-- The canonical form: rising addresses inside the memory, and no cell that equals what its address reads as unlisted. -/
def Memory.wf (m : Memory) : Bool :=
  risingCells m.cells && m.cells.all (fun c => decide (c.1 < Config.memSize) && decide (c.2 ≠ m.unlisted c.1))

/-- Writes bytes at ascending addresses. -/
def Memory.writeAll (m : Memory) (a : Nat) : List Byte → Memory
  | [] => m
  | b :: bs => (m.write a b).writeAll (a + 1) bs

/-! ### Named updates of the state -/

/-- `V[k]` (R10, R21). -/
def State.reg (s : State) (k : RegIdx) : Byte := s.v[k.val]

/-- `V[k] <- b` (R10, R21). -/
def State.setReg (s : State) (k : RegIdx) (b : Byte) : State := { s with v := s.v.set k.val b }

/-- `I <- w` (R10, R23). -/
def State.setI (s : State) (w : Word) : State := { s with i := w }

/-- `pc <- w` (R10, R24). -/
def State.setPc (s : State) (w : Word) : State := { s with pc := w }

/-- `DT <- b` (R10, R29). -/
def State.setDt (s : State) (b : Byte) : State := { s with dt := b }

/-- `ST <- b` (R10, R29). -/
def State.setSt (s : State) (b : Byte) : State := { s with st := b }

/-- The memory as a whole. -/
def State.setMem (s : State) (m : Memory) : State := { s with mem := m }

/-- The framebuffer as a whole. -/
def State.setFb (s : State) (f : Framebuffer) : State := { s with fb := f }

/-- The key mask as a whole; only the host changes it (R30). -/
def State.setKeys (s : State) (k : BitVec 16) : State := { s with keys := k }

/-- `Status <- x` (R32). -/
def State.setStatus (s : State) (x : Status) : State := { s with status := x }

/-- One stack entry and the depth pointer (R26). -/
def State.setStack (s : State) (k : Fin 16) (w : Word) (sp : Fin 17) : State :=
  { s with stack := s.stack.set k.val w, sp := sp }

/-- The depth pointer alone (R26). -/
def State.setSp (s : State) (sp : Fin 17) : State := { s with sp := sp }

/-- `Stack[k]` (R26). -/
def State.stackEntry (s : State) (k : Fin 16) : Word := s.stack[k.val]

/-! ### Memory accesses that can halt -/

/-- `MemRead(addr, 1)`: the address is an unbounded natural number (R61, D10). -/
def State.memRead (s : State) (a : Nat) : Except Cause Byte :=
  if a ≥ Config.memSize then .error .outOfBounds else .ok (s.mem.read a)

/-- `MemWrite(addr, 1, v)` (R62). -/
def State.memWrite (s : State) (a : Nat) (b : Byte) : Except Cause State :=
  if a ≥ Config.memSize then .error .outOfBounds else .ok (s.setMem (s.mem.write a b))

/-- `n` bytes from `a` upward; an error if one of them lies outside (R66, R68). -/
def State.readBlock (s : State) (a : Nat) : Nat → Except Cause (List Byte)
  | 0 => .ok []
  | n + 1 =>
    match s.memRead a with
    | .error c => .error c
    | .ok b =>
      match s.readBlock (a + 1) n with
      | .error c => .error c
      | .ok bs => .ok (b :: bs)

/-- Bytes stored from `a` upward; an error if one of them lies outside, and then no state with a part of them (R66, R68,
D9). -/
def State.writeBlock (s : State) (a : Nat) : List Byte → Except Cause State
  | [] => .ok s
  | b :: bs =>
    match s.memWrite a b with
    | .error c => .error c
    | .ok t => t.writeBlock (a + 1) bs

/-- `Fetch(PC)`: two bytes, the first the high byte; no alignment (R63, R65). -/
def State.fetch (s : State) : Except Cause Word :=
  if s.pc.toNat + 1 ≥ Config.memSize then .error .outOfBounds
  else .ok (wordOfBytes (s.mem.read s.pc.toNat) (s.mem.read (s.pc.toNat + 1)))

/-! ### The call stack -/

/-- `push(a)`: the bound is checked before any change (R27, D22). -/
def State.push (s : State) (a : Word) : Except Cause State :=
  if h : s.sp.val < 16 then .ok (s.setStack ⟨s.sp.val, h⟩ a ⟨s.sp.val + 1, by omega⟩) else .error .stackOverflow

/-- `pop()`: the entry keeps its value (R27, R28, D33). -/
def State.pop (s : State) : Except Cause (Word × State) :=
  if h : 0 < s.sp.val then
    .ok (s.stackEntry ⟨s.sp.val - 1, by omega⟩, s.setSp ⟨s.sp.val - 1, by omega⟩)
  else .error .stackUnderflow

/-! ### Framebuffer -/

/-- `FB[x][y]`, coordinates wrapped modulo 64 and 32 (R31). -/
def Framebuffer.pixel (f : Framebuffer) (x y : Nat) : Bool :=
  (f.rows[y % 32]'(Nat.mod_lt _ (by decide))).getLsbD (x % 64)

/-- A row's word with only the pixel of column x (modulo 64) lit, or none. -/
def pixelMask (x : Nat) (bit : Bool) : BitVec 64 := if bit then BitVec.twoPow 64 (x % 64) else 0

/-- `FB[x][y] <- FB[x][y] ^ bit`, coordinates wrapped (R221). -/
def Framebuffer.xorPixel (f : Framebuffer) (x y : Nat) (bit : Bool) : Framebuffer :=
  ⟨f.rows.set (y % 32) ((f.rows[y % 32]'(Nat.mod_lt _ (by decide))) ^^^ pixelMask x bit) (Nat.mod_lt _ (by decide))⟩

/-- One touched pixel of a draw: the collision flag so far, and the XOR (R221, R223). -/
def drawPixel (x y : Nat) (bit : Bool) (p : Framebuffer × Bool) : Framebuffer × Bool :=
  (p.1.xorPixel x y bit, p.2 || p.1.pixel x y)

/-- The columns `c, c + 1, …` of one sprite row, `k` of them: column c takes bit 7 - c of the row byte (R222, D15). -/
def drawColumns (x0 y : Nat) (row : Byte) (c : Nat) : Nat → Framebuffer × Bool → Framebuffer × Bool
  | 0, p => p
  | k + 1, p => drawColumns x0 y row (c + 1) k (drawPixel (x0 + c) y (row.getLsbD (7 - c)) p)

/-- The rows of a sprite, top row first, eight columns each (R221, R222). -/
def drawRows (x0 y : Nat) : List Byte → Framebuffer × Bool → Framebuffer × Bool
  | [], p => p
  | row :: rest, p => drawRows x0 (y + 1) rest (drawColumns x0 y row 0 8 p)

/-! ### Keypad and random bytes -/

/-- `Key(k)` (R10, R30). -/
def State.keyDown (s : State) (k : Nat) : Bool := s.keys.getLsbD k

/-- `firstDown()`: the lowest index down, none when no key is (R243, D20). -/
def State.firstDown (s : State) : Option Nat := (List.range 16).find? (fun k => s.keyDown k)

/-- The byte the provider answers next: an injected one if there is one, else the free value (R287, D28). -/
def State.nextRandom (s : State) : Byte := s.provided.headD (Config.randomByte s.draws)

/-- The state after one draw (R162, R287). -/
def State.afterDraw (s : State) : State := { s with provided := s.provided.tail, draws := s.draws + 1 }

/-! ### Outcomes and Halt entry -/

/-- How an instruction that does not halt leaves the PC (R120). -/
inductive Flow where
  | next
  | skip
  | stay
  | jump (t : Word)
deriving DecidableEq, Repr

/-- The PC an outcome gives, in 16 bits (R120). -/
def Flow.target (pc : Word) : Flow → Word
  | .next => pc + 2
  | .skip => pc + 4
  | .stay => pc
  | .jump t => t

/-- Ends an instruction with an outcome: the PC update of R120. -/
def finish (f : Flow) (s : State) : Out := .next (s.setPc (f.target s.pc))

/-- `raise Halt(cause)` (R272): Status takes the cause and nothing else changes. There is no return from it (R277). -/
def raiseHalt (c : Cause) (s : State) : Out := .next (s.setStatus (.halted c))

/-- Goes on with the value of an operation that can halt; on an error halts the state BEFORE the instruction, so that every
write is discarded (R11, R272, D9). -/
def guarded {α : Type} (s : State) (r : Except Cause α) (k : α → Out) : Out :=
  match r with
  | .error c => raiseHalt c s
  | .ok a => k a

end Sys2Proof.Machine
end

