-- ==== Sys2Proof/Machine/Operands.lean ====
section
/-! DEFINITION. The operand forms (R93, R196): zero-extended addresses, the offset jump, glyph addresses, index adds, BCD
digits, register blocks, key indices. -/

namespace Sys2Proof.Machine

/-- `zext_16(nnn)`: an absolute address (R93). -/
def zext16 (nnn : Addr12) : Word := nnn.zeroExtend 16

/-- `nnn + V0` in 16 bits, not reduced to 12 (R128). -/
def offsetTarget (nnn : Addr12) (v0 : Byte) : Word := zext16 nnn + v0.zeroExtend 16

/-- `Vx × 5`: the address of a digit's glyph, not masked to a digit (R192). -/
def glyphAddress (a : Byte) : Word := BitVec.ofNat 16 (a.toNat * 5)

/-- `(I + Vx) mod 65536` (R191, D11). -/
def indexSum (i : Word) (a : Byte) : Word := BitVec.ofNat 16 (i.toNat + a.toNat)

/-- The hundreds, tens and ones digits of a byte (R193). -/
def bcdDigits (a : Byte) : List Byte :=
  [BitVec.ofNat 8 (a.toNat / 100), BitVec.ofNat 8 (a.toNat / 10 % 10), BitVec.ofNat 8 (a.toNat % 10)]

/-- The latched registers V0..Vx, in order (R194). -/
def State.regsTo (s : State) (x : RegIdx) : List Byte := s.v.toList.take (x.val + 1)

/-- Writes bytes to V[k], V[k+1], …, no further than VF (R195). -/
def State.setRegsFrom (s : State) (k : Nat) : List Byte → State
  | [] => s
  | b :: bs => if h : k < 16 then (s.setReg ⟨k, h⟩ b).setRegsFrom (k + 1) bs else s

/-- A register's value as a key index; above 15 it is an error (R246, D19). -/
def keyIndex (a : Byte) : Except Cause Nat := if a.toNat > 15 then .error .badKeyIndex else .ok a.toNat

/-- `X0 = Vx mod 64`, the sprite's leftmost column (R221). -/
def originX (a : Byte) : Nat := a.toNat % 64

/-- `Y0 = Vy mod 32`, the sprite's top row (R221). -/
def originY (b : Byte) : Nat := b.toNat % 32

end Sys2Proof.Machine
end

