-- ==== Sys2Proof/Machine/Alu.lean ====
section
/-! DEFINITION. The meanings of the register loads and the arithmetic (41_register_alu.md, R151 to R162). Operands are
latched first; where a flag and a result are written, they are written in the rule's order, so that with x = F the later
write stays (R11, R150, D3). -/

namespace Sys2Proof.Machine

/-- One register write, then Next. -/
def writeReg (x : RegIdx) (b : Byte) (s : State) : Out := finish .next (s.setReg x b)

/-- The flag, then the result (R157, R158, R159, R161). -/
def writeFlagThenReg (flag : Byte) (x : RegIdx) (b : Byte) (s : State) : Out :=
  finish .next ((s.setReg vf flag).setReg x b)

/-- The result, then the flag (R160). -/
def writeRegThenFlag (x : RegIdx) (b : Byte) (flag : Byte) (s : State) : Out :=
  finish .next ((s.setReg x b).setReg vf flag)

/-- LD Vx,kk (R151). -/
def execLdImm (x : RegIdx) (kk : Byte) (s : State) : Out := writeReg x kk s

/-- ADD Vx,kk (R152): modulo 256, no flag. -/
def execAddImm (x : RegIdx) (kk : Byte) (s : State) : Out := writeReg x (s.reg x + kk) s

/-- LD Vx,Vy (R153). -/
def execLdReg (x y : RegIdx) (s : State) : Out := writeReg x (s.reg y) s

/-- OR Vx,Vy (R154); VF untouched (D4). -/
def execOrReg (x y : RegIdx) (s : State) : Out := writeReg x (s.reg x ||| s.reg y) s

/-- AND Vx,Vy (R155); VF untouched (D4). -/
def execAndReg (x y : RegIdx) (s : State) : Out := writeReg x (s.reg x &&& s.reg y) s

/-- XOR Vx,Vy (R156); VF untouched (D4). -/
def execXorReg (x y : RegIdx) (s : State) : Out := writeReg x (s.reg x ^^^ s.reg y) s

/-- ADD Vx,Vy (R157). -/
def execAddReg (x y : RegIdx) (s : State) : Out :=
  writeFlagThenReg (carryFlag (s.reg x) (s.reg y)) x (s.reg x + s.reg y) s

/-- SUB Vx,Vy (R158). -/
def execSubReg (x y : RegIdx) (s : State) : Out :=
  writeFlagThenReg (noBorrowFlag (s.reg x) (s.reg y)) x (s.reg x - s.reg y) s

/-- SHR Vx (R159); the y field is ignored (R97, D7). -/
def execShr (x _y : RegIdx) (s : State) : Out := writeFlagThenReg (lowBitFlag (s.reg x)) x (s.reg x >>> 1) s

/-- SUBN Vx,Vy (R160): the flag compares with the original Vx and is written last (C2, D2). -/
def execSubnReg (x y : RegIdx) (s : State) : Out :=
  writeRegThenFlag x (s.reg y - s.reg x) (noBorrowFlag (s.reg y) (s.reg x)) s

/-- SHL Vx (R161); the y field is ignored (R97, D7). -/
def execShl (x _y : RegIdx) (s : State) : Out := writeFlagThenReg (highBitFlag (s.reg x)) x (s.reg x <<< 1) s

/-- RND Vx,kk (R162): one draw, masked. -/
def execRnd (x : RegIdx) (kk : Byte) (s : State) : Out := writeReg x (s.nextRandom &&& kk) s.afterDraw

end Sys2Proof.Machine
end

