-- ==== Sys2Proof/Machine/Control.lean ====
section
/-! DEFINITION. The meanings of the control-transfer instructions (40_control_flow.md, R121 to R128). -/

namespace Sys2Proof.Machine

/-- RET (R121): `t <- pop(); Jump(t + 2)`. -/
def execRet (s : State) : Out := guarded s s.pop fun r => finish (.jump (r.1 + 2)) r.2

/-- JP nnn (R122). -/
def execJp (nnn : Addr12) (s : State) : Out := finish (.jump (zext16 nnn)) s

/-- CALL nnn (R123): `push(PC); Jump(zext_16(nnn))`. -/
def execCall (nnn : Addr12) (s : State) : Out := guarded s (s.push s.pc) (finish (.jump (zext16 nnn)))

/-- Skip when a condition holds, else Next (R124). -/
def skipIf (c : Bool) (s : State) : Out := finish (if c then .skip else .next) s

/-- SE Vx,kk (R124). -/
def execSeImm (x : RegIdx) (kk : Byte) (s : State) : Out := skipIf (s.reg x == kk) s

/-- SNE Vx,kk (R125). -/
def execSneImm (x : RegIdx) (kk : Byte) (s : State) : Out := skipIf (s.reg x != kk) s

/-- SE Vx,Vy (R126). -/
def execSeReg (x y : RegIdx) (s : State) : Out := skipIf (s.reg x == s.reg y) s

/-- SNE Vx,Vy (R127). -/
def execSneReg (x y : RegIdx) (s : State) : Out := skipIf (s.reg x != s.reg y) s

/-- JP V0,nnn (R128). -/
def execJpV0 (nnn : Addr12) (s : State) : Out := finish (.jump (offsetTarget nnn (s.reg 0))) s

end Sys2Proof.Machine
end

