-- ==== Sys2Proof/Machine/Display.lean ====
section
/-! DEFINITION. The meanings of the framebuffer instructions (43_display.md, R220 to R223). -/

namespace Sys2Proof.Machine

/-- CLS (R220). -/
def execCls (s : State) : Out := finish .next (s.setFb Framebuffer.blank)

/-- DRW Vx,Vy,n (R221): operands latched, every row read first, then the pixels, then VF = hit (D16, D18). -/
def execDrw (x y : RegIdx) (n : Nat) (s : State) : Out :=
  guarded s (s.readBlock s.i.toNat n) fun rows =>
    finish .next
      ((s.setFb (drawRows (originX (s.reg x)) (originY (s.reg y)) rows (s.fb, false)).1).setReg vf
        (flagByte (drawRows (originX (s.reg x)) (originY (s.reg y)) rows (s.fb, false)).2))

end Sys2Proof.Machine
end

