-- ==== Sys2Proof/Machine/Index.lean ====
section
/-! DEFINITION. The meanings of the index-register and memory instructions (42_index_memory.md, R190 to R195). Addresses
are I + k as unbounded naturals (R61); I itself is changed by the first three only (R196, D34). -/

namespace Sys2Proof.Machine

/-- LD I,nnn (R190). -/
def execLdI (nnn : Addr12) (s : State) : Out := finish .next (s.setI (zext16 nnn))

/-- ADD I,Vx (R191): modulo 65536, no flag (D4, D11). -/
def execAddI (x : RegIdx) (s : State) : Out := finish .next (s.setI (indexSum s.i (s.reg x)))

/-- LD F,Vx (R192). -/
def execLdF (x : RegIdx) (s : State) : Out := finish .next (s.setI (glyphAddress (s.reg x)))

/-- LD B,Vx (R193): three digits at I, I+1, I+2. -/
def execLdB (x : RegIdx) (s : State) : Out := guarded s (s.writeBlock s.i.toNat (bcdDigits (s.reg x))) (finish .next)

/-- LD [I],Vx (R194): V0..Vx stored from I upward. -/
def execStoreRegs (x : RegIdx) (s : State) : Out := guarded s (s.writeBlock s.i.toNat (s.regsTo x)) (finish .next)

/-- LD Vx,[I] (R195): V0..Vx loaded from I upward, all reads first. -/
def execLoadRegs (x : RegIdx) (s : State) : Out :=
  guarded s (s.readBlock s.i.toNat (x.val + 1)) fun bs => finish .next (s.setRegsFrom 0 bs)

end Sys2Proof.Machine
end

