-- ==== Sys2Proof/Machine/Keypad.lean ====
section
/-! DEFINITION. The meanings of the keypad and timer instructions (44_keypad_timers.md, R240 to R246). -/

namespace Sys2Proof.Machine

/-- SKP Vx (R240): the key index is checked first (R246). -/
def execSkp (x : RegIdx) (s : State) : Out := guarded s (keyIndex (s.reg x)) fun k => skipIf (s.keyDown k) s

/-- SKNP Vx (R241). -/
def execSknp (x : RegIdx) (s : State) : Out := guarded s (keyIndex (s.reg x)) fun k => skipIf (!s.keyDown k) s

/-- LD Vx,DT (R242). -/
def execLdVxDt (x : RegIdx) (s : State) : Out := writeReg x s.dt s

/-- LD Vx,K (R243): Stay while no key is down, else the lowest index down (D20). -/
def execLdVxK (x : RegIdx) (s : State) : Out :=
  match s.firstDown with
  | none => finish .stay s
  | some k => writeReg x (BitVec.ofNat 8 k) s

/-- LD DT,Vx (R244). -/
def execLdDtVx (x : RegIdx) (s : State) : Out := finish .next (s.setDt (s.reg x))

/-- LD ST,Vx (R245). -/
def execLdStVx (x : RegIdx) (s : State) : Out := finish .next (s.setSt (s.reg x))

end Sys2Proof.Machine
end

