-- ==== Sys2Proof/Machine/HostInterface.lean ====
section
/-! DEFINITION. The host's side of the block (R279 to R291): the transactions that change state, the read-only ones, the
front end of a step (R120, R274), and what the schedule puts before a step (R7, D27). -/

namespace Sys2Proof.Machine

/-! ### Transactions that change state -/

/-- `load(bytes)` when the ROM fits: every piece of the block's state takes its value of R321, the glyph table and then the
ROM are in memory (R72). The random-byte provider and the host's own schedule are outside the block and stay (log 19). -/
def State.loadRom (s : State) (bytes : List Byte) : State :=
  { State.resetWith s.mem.glyphs with
    mem := (State.resetWith s.mem.glyphs).mem.writeAll Config.progBase bytes
    provided := s.provided
    draws := s.draws
    schedule := s.schedule }

/-- `load(bytes)`: too large a ROM changes nothing (R72, R320, D26). -/
def State.load (s : State) (bytes : List Byte) : State := if romFits bytes then s.loadRom bytes else s

/-- One timer of `tickTimers()`: down by one, never below 0 (R279). -/
def countDown (b : Byte) : Byte := if b.toNat > 0 then b - 1 else b

/-- `tickTimers()` (R279), whatever Status is (R282, D24). -/
def State.tickTimers (s : State) : State := (s.setDt (countDown s.dt)).setSt (countDown s.st)

/-- `setKeyDown(k)`; an index above 15 is ignored (R283, D21). -/
def State.setKeyDown (s : State) (k : Nat) : State :=
  if k < 16 then s.setKeys (s.keys ||| BitVec.twoPow 16 k) else s

/-- `setKeyUp(k)`; an index above 15 is ignored (R283, D21). -/
def State.setKeyUp (s : State) (k : Nat) : State :=
  if k < 16 then s.setKeys (s.keys &&& ~~~(BitVec.twoPow 16 k)) else s

/-- The state after one transaction of the host (R291). -/
def HostMove.apply (m : HostMove) (s : State) : State :=
  match m with
  | .load bytes => s.load bytes
  | .tickTimers => s.tickTimers
  | .setKeyDown k => s.setKeyDown k
  | .setKeyUp k => s.setKeyUp k

/-- Transactions one after another (R275). -/
def applyMoves (ms : List HostMove) (s : State) : State := ms.foldl (fun t m => m.apply t) s

/-- Takes the first group off the schedule and runs it: what the host does before the coming step (R7, R280, D27; log 1). -/
def State.hostPhase (s : State) : State :=
  match s.schedule with
  | [] => s
  | ms :: rest => applyMoves ms { s with schedule := rest }

/-! ### Read-only transactions -/

/-- What a call answers: Ok, or Err with a cause (R72, R120). -/
inductive CallResult where
  | ok
  | err (c : Cause)
deriving DecidableEq, Repr

/-- What `load(bytes)` answers (R72). -/
def loadResult (bytes : List Byte) : CallResult := if romFits bytes then .ok else .err .loadTooLarge

/-- What the `step()` that ended in this state answered: Err(cause) exactly when it halted now or was halted before
(R120, R272, R273; log 6). -/
def State.stepResult (s : State) : CallResult :=
  match s.status with
  | .running => .ok
  | .halted c => .err c

/-- The display read of one pixel (R284). -/
def State.readPixel (s : State) (x : Fin 64) (y : Fin 32) : Bool := s.fb.pixel x.val y.val

/-- The tone signal (R281). -/
def State.tone (s : State) : Bool := decide (s.st ≠ 0)

/-- "The next opcode to be decoded": the word at PC when PC ≤ 0xFFE, absent otherwise (R285, D31). -/
def State.nextOpcode (s : State) : Option Word := s.fetch.toOption

/-- The introspection snapshot (R285). -/
structure Snapshot where
  pc : Word
  sp : Fin 17
  v : Vector Byte 16
  i : Word
  stack : Vector Word 16
  dt : Byte
  st : Byte
  nextOpcode : Option Word
  status : Status
deriving DecidableEq, Repr

/-- The introspection read, stale stack entries included (R28, R285, D33). -/
def State.snapshot (s : State) : Snapshot :=
  ⟨s.pc, s.sp, s.v, s.i, s.stack, s.dt, s.st, s.nextOpcode, s.status⟩

/-- The word `1nnn` with nnn = PC at PC, while Running: a finished program (R292, D30). -/
def State.finished (s : State) : Bool :=
  decide (s.status = .running) &&
    match s.fetch with
    | .ok w => decide (w &&& 0xF000 = 0x1000 ∧ (nnnField w).zeroExtend 16 = s.pc)
    | .error _ => false

/-! ### The front end of a step -/

/-- What a step does, as far as it is known before the instruction runs. -/
inductive Front where
  /-- The block has never loaded (R323). -/
  | refuse (r : Refusal)
  /-- Status is Halted: nothing changes (R273). -/
  | idle
  /-- The fetch bound or the decoder raises a halt (R63, R96). -/
  | halt (c : Cause)
  /-- The instruction to run. -/
  | run (i : Instr)
deriving DecidableEq, Repr

/-- The checks before an instruction, in the order of R274: Halted, fetch bound, decode. -/
def State.front (s : State) : Front :=
  if s.loaded then
    match s.status with
    | .halted _ => .idle
    | .running =>
      match s.fetch with
      | .error c => .halt c
      | .ok w =>
        match decode w with
        | .unknown => .halt .unknownOpcode
        | .instr i => .run i
  else .refuse .neverLoaded

/-! ### Placing a word where the next step fetches -/

/-- The address the next step fetches from: PC, or PROG_BASE where no fetch at PC could succeed (log 4). -/
def State.fetchAddress (s : State) : Word :=
  if s.pc.toNat + 1 < Config.memSize then s.pc else BitVec.ofNat 16 Config.progBase

/-- The state with a word stored at the fetch address, high byte first, and with what a fetch needs beside it: loaded,
Running, and no host transaction in between (log 4). -/
def State.placeWord (s : State) (w : Word) : State :=
  { s with
    mem := s.mem.writeAll s.fetchAddress.toNat [w.extractLsb' 8 8, w.extractLsb' 0 8]
    pc := s.fetchAddress
    status := .running
    loaded := true
    schedule := if s.schedule = [] then [] else [] :: s.schedule }

end Sys2Proof.Machine
end

