-- ==== Sys2Proof/Machine/Step.lean ====
section
/-! DEFINITION. One step (R120), and the host's transactions as one type (R291). -/

namespace Sys2Proof.Machine

/-- The `step()` transaction (R120, R273, R274). -/
def stepTransaction (s : State) : Host.Outcome State Fault Refusal :=
  match s.front with
  | .refuse r => .refused r
  | .idle => .next s
  | .halt c => raiseHalt c s
  | .run i => exec i s

/-- One step of the machine: what the schedule puts before it (none, where the schedule is empty), then `step()`. -/
def step (s : State) : Host.Outcome State Fault Refusal := stepTransaction s.hostPhase

/-- The state with a word stored where `step` fetches its next instruction; it stands for a `load` of that word (log 4). -/
def State.withFetchWord (s : State) (nbits w : Nat) : State := s.placeWord (tableWord nbits w)

/-- Every interface transaction of R291. -/
inductive Transaction where
  | move (m : HostMove)
  | step
  | readPixel (x : Fin 64) (y : Fin 32)
  | introspect
  | tone
deriving DecidableEq, Repr

/-- What the host gets back (R291). -/
inductive Response where
  | nothing
  | result (r : CallResult)
  | pixel (lit : Bool)
  | snapshot (v : Snapshot)
  | tone (on : Bool)
deriving DecidableEq, Repr

/-- What a transaction answers, given the state before and after it (R291). -/
def Transaction.response (x : Transaction) (before after : State) : Response :=
  match x with
  | .move (.load bytes) => .result (loadResult bytes)
  | .move .tickTimers | .move (.setKeyDown _) | .move (.setKeyUp _) => .nothing
  | .step => .result after.stepResult
  | .readPixel a b => .pixel (before.readPixel a b)
  | .introspect => .snapshot before.snapshot
  | .tone => .tone before.tone

/-- The state after a transaction, where it is not refused (R291). -/
def Transaction.run (x : Transaction) (s : State) : Host.Outcome State Fault Refusal :=
  match x with
  | .move m => .next (m.apply s)
  | .step => stepTransaction s
  | .readPixel _ _ | .introspect | .tone => .next s

end Sys2Proof.Machine
end

