-- ==== Sys2Proof/Safety.lean ====
section
/-! DEFINITION. The terms claims use: the places of the state and what it means that a step leaves them alone (R12), the
invariant every step keeps, and the stored and loaded ranges of R66. -/

namespace Sys2Proof.Machine

/-- A place of the state: one register, one byte, one stack entry, one pixel, or one of the single fields. Between them
they are the whole of `State`. -/
inductive Place where
  | reg (k : RegIdx)
  | i
  | pc
  | byte (a : Nat)
  | stackEntry (k : Fin 16)
  | sp
  | dt
  | st
  | keys
  | pixel (x : Fin 64) (y : Fin 32)
  | status
  | glyphs
  | loaded
  | provided
  | draws
  | schedule
deriving DecidableEq, Repr

/-- The place holds the same in both states. A byte of memory is compared through the model's read of one byte. -/
@[simp] def Place.Same (s t : State) : Place → Prop
  | .reg k => t.reg k = s.reg k
  | .i => t.i = s.i
  | .pc => t.pc = s.pc
  | .byte a => t.mem.read a = s.mem.read a
  | .stackEntry k => t.stackEntry k = s.stackEntry k
  | .sp => t.sp = s.sp
  | .dt => t.dt = s.dt
  | .st => t.st = s.st
  | .keys => t.keys = s.keys
  | .pixel x y => t.fb.pixel x.val y.val = s.fb.pixel x.val y.val
  | .status => t.status = s.status
  | .glyphs => t.mem.glyphs = s.mem.glyphs
  | .loaded => t.loaded = s.loaded
  | .provided => t.provided = s.provided
  | .draws => t.draws = s.draws
  | .schedule => t.schedule = s.schedule

/-- Only the places of `W` may differ: every other place holds the same (R12). -/
abbrev OnlyChanges (W : Place → Prop) (s t : State) : Prop := ∀ p : Place, ¬ W p → p.Same s t

/-- The largest PC an executed instruction can leave: JP V0,nnn with nnn = 0xFFF and V0 = 0xFF (R25). -/
abbrev maxPc : Nat := 0x10FE

/-- The invariant of every step: the memory keeps its canonical form; PC never passes 0x10FE, so it never wraps (R25);
every return address was fetchable, so RET leaves at most 0x1000 (R25, R121); Status is never Halted(LoadTooLarge)
(R32, R271). That SP is 0..16 holds by its type (R26). -/
abbrev State.Inv (s : State) : Prop :=
  s.mem.wf = true ∧ s.pc.toNat ≤ maxPc ∧ (∀ k : Fin 16, (s.stackEntry k).toNat ≤ 0xFFE) ∧
    s.status ≠ .halted .loadTooLarge

/-- A state whose next step runs an instruction: nothing of the host comes first, a ROM was loaded, Status is Running, and
the two bytes at PC are the word `w` (R120). -/
abbrev State.AtWord (s : State) (w : Word) : Prop :=
  s.schedule = [] ∧ s.loaded = true ∧ s.status = .running ∧ s.fetch = .ok w

/-- The words an instruction has: every word with these fixed bits decodes to it, its operands read from the word's fields
(R95). -/
abbrev Encoded (pattern mask : Word) (build : Word → Instr) : Prop :=
  ∀ w : Word, w &&& mask = pattern → decode w = .instr (build w)

/-- The PC an instruction that does not halt leaves, by its outcome (R120): Skip for the six skip-type instructions only,
Stay for LD Vx,K only, and then nothing at all changes (R129, R243). -/
abbrev PcAfter (i : Instr) (s t : State) : Prop :=
  match i with
  | .seImm _ _ | .sneImm _ _ | .seReg _ _ | .sneReg _ _ | .skp _ | .sknp _ => t.pc = s.pc + 2 ∨ t.pc = s.pc + 4
  | .ldVxK _ => t.pc = s.pc + 2 ∨ t = s
  | .jp nnn | .call nnn => t.pc = nnn.zeroExtend 16
  | .jpV0 nnn => t.pc.toNat = nnn.toNat + (s.reg 0).toNat
  | .ret => ∃ k : Fin 16, k.val + 1 = s.sp.val ∧ t.pc = s.stackEntry k + 2
  | .cls | .ldImm _ _ | .addImm _ _ | .ldReg _ _ | .orReg _ _ | .andReg _ _ | .xorReg _ _ | .addReg _ _
  | .subReg _ _ | .shr _ _ | .subnReg _ _ | .shl _ _ | .ldI _ | .rnd _ _ | .drw _ _ _ | .ldVxDt _ | .ldDtVx _
  | .ldStVx _ | .addI _ | .ldF _ | .ldB _ | .storeRegs _ | .loadRegs _ => t.pc = s.pc + 2

/-- Transactions one after another, up to the first that is refused (R291). -/
def runTransactions : List Transaction → State → Host.Outcome State Fault Refusal
  | [], s => .next s
  | x :: xs, s =>
    match x.run s with
    | .next t => runTransactions xs t
    | .fault r => .fault r
    | .refused r => .refused r

/-- Every byte of an `n`-byte access from `a` upward lies in the memory; an access of no bytes always does (R66, R68). -/
abbrev InMemory (a n : Nat) : Prop := n = 0 ∨ a + n ≤ Config.memSize

end Sys2Proof.Machine
end

