-- ==== Sys2Proof/Certificates/Slice0/Obligations.lean ====
section
/-! DEFINITION. The statements for the provers, from the numbered rules of spec/. A frame is said with `OnlyChanges`, which
names every place of the state that may differ; it rests on R12, which the spec marks as its decision D4. -/

open Sys2Proof Sys2Proof.Machine

/-! ### Encoding -/

/-- Words written out from the encodings of R94, one or more of each family, and unknown words of R96. The patterns are
standard CHIP-8, which the source confirms for 6005, A0FF, D005 and FFFF (log 8). -/
def Obligations.WrittenWordsDecode : Prop :=
  decode 0x6005 = .instr (.ldImm 0 0x05) ∧ decode 0xA0FF = .instr (.ldI 0x0FF) ∧
  decode 0xD015 = .instr (.drw 0 1 5) ∧ decode 0x00E0 = .instr .cls ∧ decode 0x2ABC = .instr (.call 0xABC) ∧
  decode 0x9AB0 = .instr (.sneReg 0xA 0xB) ∧ decode 0x8127 = .instr (.subnReg 1 2) ∧
  decode 0xE3A1 = .instr (.sknp 3) ∧ decode 0xF265 = .instr (.loadRegs 2) ∧
  decode 0xFFFF = .unknown ∧ decode 0x0000 = .unknown ∧ decode 0x5121 = .unknown

/-- Every well-formed instruction is decoded from its own word, and from its own two bytes whatever follows them
(R90, R94, R95). -/
def Obligations.DecodeOfEncodedInstruction : Prop :=
  ∀ i : Instr, i.wellFormed = true →
    decode (encode i) = .instr i ∧ ∀ rest : List Byte, decodeBytes (encodeBytes i ++ rest) = .instr i rest

/-- Every word that decodes gives a well-formed instruction whose word it is: decoding drops no bit, and no two words have
one meaning but through the y field that SHR and SHL ignore, which the syntax keeps (R95, R97; log 16). -/
def Obligations.EncodeOfDecodedWord : Prop :=
  ∀ (w : Word) (i : Instr), decode w = .instr i → i.wellFormed = true ∧ encode i = w

/-- The unknown words are those of R96's table, by op (which R96 marks as decision D6). -/
def Obligations.UnknownWordsAreTheTables : Prop :=
  ∀ w : Word, decode w = .unknown ↔
    (w.toNat / 4096 = 0 ∧ w ≠ 0x00E0 ∧ w ≠ 0x00EE) ∨
    (w.toNat / 4096 = 5 ∧ w.toNat % 16 ≠ 0) ∨
    (w.toNat / 4096 = 8 ∧ w.toNat % 16 ∈ [8, 9, 0xA, 0xB, 0xC, 0xD, 0xF]) ∨
    (w.toNat / 4096 = 9 ∧ w.toNat % 16 ≠ 0) ∨
    (w.toNat / 4096 = 0xE ∧ w.toNat % 256 ∉ [0x9E, 0xA1]) ∨
    (w.toNat / 4096 = 0xF ∧ w.toNat % 256 ∉ [0x07, 0x0A, 0x15, 0x18, 0x1E, 0x29, 0x33, 0x55, 0x65])

/-! ### The step -/

/-- A step runs the instruction the bytes at PC decode to; and what the schedule puts before a step comes first (R120, R7;
the schedule is the model's own field, log 1). -/
def Obligations.StepRunsDecodedInstruction : Prop :=
  (∀ (s : State) (w : Word) (i : Instr), s.AtWord w → decode w = .instr i → step s = exec i s) ∧
  (∀ (s : State) (ms : List HostMove) (rest : List (List HostMove)), s.schedule = ms :: rest →
    step s = stepTransaction (applyMoves ms { s with schedule := rest }))

/-- The checks before an instruction, in their order: Halted, the fetch bound, decode (R63, R96, R273, R274; D23). A halt
changes Status alone, and the step's answer is read from it (log 6). -/
def Obligations.StepChecksBeforeDecoding : Prop :=
  ∀ s : State, s.schedule = [] → s.loaded = true →
    (∀ c, s.status = .halted c → step s = .next s ∧ s.stepResult = .err c) ∧
    (s.status = .running → 4096 ≤ s.pc.toNat + 1 →
      ∃ t, step s = .next t ∧ t = { s with status := .halted .outOfBounds } ∧ t.stepResult = .err .outOfBounds) ∧
    (s.status = .running → s.pc.toNat + 1 < 4096 →
      decode (wordOfBytes (s.mem.read s.pc.toNat) (s.mem.read (s.pc.toNat + 1))) = .unknown →
      ∃ t, step s = .next t ∧ t = { s with status := .halted .unknownOpcode } ∧ t.stepResult = .err .unknownOpcode)

/-- A fetch reads the big-endian word at PC, and is out of bounds from PC = 0xFFF on (R63). -/
def Obligations.FetchReadsBigEndianWord : Prop :=
  ∀ s : State,
    (4096 ≤ s.pc.toNat + 1 → s.fetch = .error .outOfBounds) ∧
    (s.pc.toNat + 1 < 4096 →
      ∃ w, s.fetch = .ok w ∧ w.toNat = (s.mem.read s.pc.toNat).toNat * 256 + (s.mem.read (s.pc.toNat + 1)).toNat)

/-- A block that never loaded refuses to step (R323, D26; log 5). -/
def Obligations.NeverLoadedBlockRefusesToStep : Prop :=
  ∀ s : State, s.schedule = [] → s.loaded = false → step s = .refused .neverLoaded

/-- Every instruction answers a next state in every state; it either leaves Status alone or halts with a cause that R271
gives for that very instruction, and then nothing else changes (R271, R272, D9). -/
def Obligations.HaltsArePreciseAndNamed : Prop :=
  ∀ (i : Instr) (s : State), ∃ t, exec i s = .next t ∧
    (t.status = s.status ∨
      ∃ c, t = { s with status := .halted c } ∧
        ((c = .outOfBounds ∧ ((∃ x y n, i = .drw x y n) ∨ ∃ x, i = .ldB x ∨ i = .storeRegs x ∨ i = .loadRegs x)) ∨
          (c = .stackOverflow ∧ ∃ nnn, i = .call nnn) ∨ (c = .stackUnderflow ∧ i = .ret) ∨
          (c = .badKeyIndex ∧ ∃ x, i = .skp x ∨ i = .sknp x)))

/-- The PC after an instruction: unchanged where it halts; else PC + 2, or PC + 4 for the six skip instructions, or
unchanged for LD Vx,K, or the target for the jumps (R120, R129). -/
def Obligations.PcFollowsTheOutcome : Prop :=
  ∀ (i : Instr) (s t : State), exec i s = .next t →
    (∃ c, t = { s with status := .halted c }) ∨
    PcAfter i s t

/-! ### Reset, load, invariants -/

/-- What reset leaves, for every glyph table: the values of R321 with a ROM of no bytes (D1, D13, D25; log 4). -/
def Obligations.ResetLeavesTheseValues : Prop :=
  ∀ g : Vector Byte Config.glyphSize,
    (∀ k, (State.resetWith g).reg k = 0) ∧ (State.resetWith g).i = 0 ∧ (State.resetWith g).pc = 0x200 ∧
    (State.resetWith g).sp = 0 ∧ (∀ k, (State.resetWith g).stackEntry k = 0) ∧
    (State.resetWith g).dt = 0 ∧ (State.resetWith g).st = 0 ∧ (State.resetWith g).keys = 0 ∧
    (∀ x y, (State.resetWith g).fb.pixel x y = false) ∧ (State.resetWith g).status = .running ∧
    (∀ (a : Nat) (h : a < Config.glyphSize), (State.resetWith g).mem.read a = g[a]) ∧
    (∀ a, Config.glyphSize ≤ a → (State.resetWith g).mem.read a = 0)

/-- A load whose ROM fits leaves the glyph table, the ROM at 0x200 and zeros elsewhere, and every other place of the block
as reset leaves it; one that does not fit changes nothing and answers LoadTooLarge (R69, R72, R320, R321; D13, D26). The
random-byte provider and the schedule are outside the block and stay (log 19). -/
def Obligations.LoadPutsTableAndRomInMemory : Prop :=
  ∀ (s : State) (bytes : List Byte),
    (bytes.length ≤ 3584 →
      loadResult bytes = .ok ∧
      (∀ (a : Nat) (h : a < Config.glyphSize), (s.load bytes).mem.read a = s.mem.glyphs[a]) ∧
      (∀ (k : Nat) (h : k < bytes.length), (s.load bytes).mem.read (0x200 + k) = bytes[k]) ∧
      (∀ a, Config.glyphSize ≤ a → a < 0x200 ∨ 0x200 + bytes.length ≤ a → (s.load bytes).mem.read a = 0) ∧
      (s.load bytes).provided = s.provided ∧ (s.load bytes).draws = s.draws ∧ (s.load bytes).schedule = s.schedule ∧
      OnlyChanges
        (fun p => p = .provided ∨ p = .draws ∨ p = .schedule ∨ ∃ k, k < bytes.length ∧ p = .byte (0x200 + k))
        (State.resetWith s.mem.glyphs) (s.load bytes)) ∧
    (3584 < bytes.length → s.load bytes = s ∧ loadResult bytes = .err .loadTooLarge)

/-- The invariant holds right after reset, whatever the glyph table. -/
def Obligations.ResetMeetsTheInvariant : Prop :=
  State.reset.Inv ∧ ∀ g : Vector Byte Config.glyphSize, (State.resetWith g).Inv

/-- Every step keeps the invariant, whatever the schedule puts before it: the memory's canonical form, PC ≤ 0x10FE so that
it never wraps, fetchable return addresses, no Status Halted(LoadTooLarge) (R25, R26, R32, R67). -/
def Obligations.StepKeepsTheInvariant : Prop :=
  ∀ s t : State, s.Inv → step s = .next t → t.Inv

/-- So does every sequence of interface transactions in any order (R7, R291). -/
def Obligations.TransactionsKeepTheInvariant : Prop :=
  ∀ (xs : List Transaction) (s t : State), s.Inv → runTransactions xs s = .next t → t.Inv

/-- Canonical memories with one glyph table that read alike at every address are equal data (log 21). -/
def Obligations.MemoriesReadingAlikeAreEqual : Prop :=
  ∀ m m' : Memory, m.wf = true → m'.wf = true → m.glyphs = m'.glyphs → (∀ a, m.read a = m'.read a) → m = m'

/-- Only a load leaves Halted: through any other transactions Status keeps its cause and nothing but the timers and the
keypad changes (R273, R277, R282; D23, D24). -/
def Obligations.HaltedBlockStaysHalted : Prop :=
  ∀ (s : State) (c : Cause) (xs : List Transaction), s.loaded = true → s.status = .halted c →
    (∀ bytes, Transaction.move (.load bytes) ∉ xs) →
    ∃ t, runTransactions xs s = .next t ∧ t.status = .halted c ∧
      OnlyChanges (fun p => p = .dt ∨ p = .st ∨ p = .keys) s t

/-! ### Control transfer -/

/-- JP nnn: PC takes the zero-extended address; from 0xFFF the next fetch is out of bounds; a jump to itself changes
nothing (R122). -/
def Obligations.JumpSetsPc : Prop :=
  Encoded 0x1000 0xF000 (fun w => .jp (nnnField w)) ∧
  ∀ (nnn : Addr12) (s : State), ∃ t, exec (.jp nnn) s = .next t ∧ t.pc.toNat = nnn.toNat ∧
    t.status = s.status ∧ (∀ k, t.reg k = s.reg k) ∧ (nnn = 0xFFF → t.fetch = .error .outOfBounds) ∧ (nnn.toNat = s.pc.toNat → t = s)

/-- JP V0,nnn: PC takes nnn + V0, not reduced to 12 bits; a target from 0xFFF on is out of bounds at the next fetch, which
R128 marks as derived. -/
def Obligations.OffsetJumpSetsPc : Prop :=
  Encoded 0xB000 0xF000 (fun w => .jpV0 (nnnField w)) ∧
  ∀ (nnn : Addr12) (s : State), ∃ t, exec (.jpV0 nnn) s = .next t ∧ t.pc.toNat = nnn.toNat + (s.reg 0).toNat ∧
    (0xFFF ≤ nnn.toNat + (s.reg 0).toNat → t.fetch = .error .outOfBounds)

/-- The four comparing skips: PC + 4 when the condition holds, else PC + 2, no flag and no halt; 5xyN and 9xyN with N ≠ 0
are unknown (R124, R125, R126, R127). -/
def Obligations.ComparisonsSkip : Prop :=
  (Encoded 0x3000 0xF000 (fun w => .seImm (xField w) (kkField w)) ∧
    Encoded 0x4000 0xF000 (fun w => .sneImm (xField w) (kkField w)) ∧
    Encoded 0x5000 0xF00F (fun w => .seReg (xField w) (yField w)) ∧
    Encoded 0x9000 0xF00F (fun w => .sneReg (xField w) (yField w)) ∧
    ∀ w : Word, (w &&& 0xF000 = 0x5000 ∨ w &&& 0xF000 = 0x9000) → w &&& 0x000F ≠ 0 → decode w = .unknown) ∧
  ∀ (x y : RegIdx) (kk : Byte) (s : State),
    (∃ t, exec (.seImm x kk) s = .next t ∧ t.status = s.status ∧ (∀ k, t.reg k = s.reg k) ∧
      t.pc = if s.reg x = kk then s.pc + 4 else s.pc + 2) ∧
    (∃ t, exec (.sneImm x kk) s = .next t ∧ t.status = s.status ∧ (∀ k, t.reg k = s.reg k) ∧
      t.pc = if s.reg x = kk then s.pc + 2 else s.pc + 4) ∧
    (∃ t, exec (.seReg x y) s = .next t ∧ t.status = s.status ∧ (∀ k, t.reg k = s.reg k) ∧
      t.pc = if s.reg x = s.reg y then s.pc + 4 else s.pc + 2) ∧
    (∃ t, exec (.sneReg x y) s = .next t ∧ t.status = s.status ∧ (∀ k, t.reg k = s.reg k) ∧
      t.pc = if s.reg x = s.reg y then s.pc + 2 else s.pc + 4)

/-- The frame of the jumps and the comparing skips: PC alone changes (R12, D4). -/
def Obligations.JumpsAndSkipsChangePcOnly : Prop :=
  ∀ (x y : RegIdx) (kk : Byte) (nnn : Addr12) (s : State),
    ∀ i ∈ [Instr.jp nnn, .jpV0 nnn, .seImm x kk, .sneImm x kk, .seReg x y, .sneReg x y],
      ∃ t, exec i s = .next t ∧ OnlyChanges (fun p => p = .pc) s t

/-- CALL nnn: the address of the CALL itself goes to Stack[SP], SP counts it, PC takes the target; with 16 entries it halts
and changes nothing but Status (R27, R123; D22). -/
def Obligations.CallPushesItsOwnAddress : Prop :=
  Encoded 0x2000 0xF000 (fun w => .call (nnnField w)) ∧
  ∀ (nnn : Addr12) (s : State),
    (∀ k : Fin 16, k.val = s.sp.val →
      ∃ t, exec (.call nnn) s = .next t ∧ t.pc.toNat = nnn.toNat ∧ t.sp.val = s.sp.val + 1 ∧ t.stackEntry k = s.pc ∧
        OnlyChanges (fun p => p = .pc ∨ p = .sp ∨ p = .stackEntry k) s t) ∧
    (s.sp.val = 16 → exec (.call nnn) s = .next { s with status := .halted .stackOverflow })

/-- RET: PC takes the top entry plus 2, SP goes down, the entry keeps its value; with an empty stack it halts and changes
nothing but Status (R27, R28, R121; D22, D33). -/
def Obligations.RetPopsAndAddsTwo : Prop :=
  Encoded 0x00EE 0xFFFF (fun _ => .ret) ∧
  ∀ s : State,
    (∀ k : Fin 16, k.val + 1 = s.sp.val →
      ∃ t, exec .ret s = .next t ∧ t.pc = s.stackEntry k + 2 ∧ t.sp.val = k.val ∧
        OnlyChanges (fun p => p = .pc ∨ p = .sp) s t) ∧
    (s.sp.val = 0 → exec .ret s = .next { s with status := .halted .stackUnderflow })

/-- A CALL and the RET that answers it come back to the word after the CALL with the stack depth restored, whatever ran in
between, as long as it left the stack as the CALL left it (R121, R123). -/
def Obligations.ReturnGoesPastItsCall : Prop :=
  ∀ (nnn : Addr12) (s t u : State), s.sp.val < 16 → exec (.call nnn) s = .next t →
    u.stack = t.stack → u.sp = t.sp →
    ∃ r, exec .ret u = .next r ∧ r.pc = s.pc + 2 ∧ r.sp = s.sp ∧ r.status = u.status

/-! ### Register loads and arithmetic -/

/-- LD Vx,kk, ADD Vx,kk and LD Vx,Vy: the destination's new value; VF changes only as the destination; no halt
(R151, R152, R153). -/
def Obligations.LoadsAndImmediateAdd : Prop :=
  (Encoded 0x6000 0xF000 (fun w => .ldImm (xField w) (kkField w)) ∧
    Encoded 0x7000 0xF000 (fun w => .addImm (xField w) (kkField w)) ∧
    Encoded 0x8000 0xF00F (fun w => .ldReg (xField w) (yField w))) ∧
  ∀ (x y : RegIdx) (kk : Byte) (s : State),
    (∃ t, exec (.ldImm x kk) s = .next t ∧ t.reg x = kk ∧ t.pc = s.pc + 2 ∧ t.status = s.status ∧
      (x ≠ vf → t.reg vf = s.reg vf)) ∧
    (∃ t, exec (.addImm x kk) s = .next t ∧ (t.reg x).toNat = ((s.reg x).toNat + kk.toNat) % 256 ∧
      t.pc = s.pc + 2 ∧ t.status = s.status ∧ (x ≠ vf → t.reg vf = s.reg vf)) ∧
    (∃ t, exec (.ldReg x y) s = .next t ∧ t.reg x = s.reg y ∧ t.pc = s.pc + 2 ∧ t.status = s.status ∧
      (x ≠ vf → t.reg vf = s.reg vf))

/-- OR, AND and XOR: each bit of the destination; VF changes only as the destination (R154, R155, R156; D4). -/
def Obligations.BitwiseOperations : Prop :=
  (Encoded 0x8001 0xF00F (fun w => .orReg (xField w) (yField w)) ∧
    Encoded 0x8002 0xF00F (fun w => .andReg (xField w) (yField w)) ∧
    Encoded 0x8003 0xF00F (fun w => .xorReg (xField w) (yField w))) ∧
  ∀ (x y : RegIdx) (s : State),
    (∃ t, exec (.orReg x y) s = .next t ∧ t.pc = s.pc + 2 ∧ (x ≠ vf → t.reg vf = s.reg vf) ∧
      ∀ k < 8, (t.reg x).getLsbD k = ((s.reg x).getLsbD k || (s.reg y).getLsbD k)) ∧
    (∃ t, exec (.andReg x y) s = .next t ∧ t.pc = s.pc + 2 ∧ (x ≠ vf → t.reg vf = s.reg vf) ∧
      ∀ k < 8, (t.reg x).getLsbD k = ((s.reg x).getLsbD k && (s.reg y).getLsbD k)) ∧
    (∃ t, exec (.xorReg x y) s = .next t ∧ t.pc = s.pc + 2 ∧ (x ≠ vf → t.reg vf = s.reg vf) ∧
      ∀ k < 8, (t.reg x).getLsbD k = ((s.reg x).getLsbD k ^^ (s.reg y).getLsbD k))

/-- ADD Vx,Vy: the sum modulo 256, VF = 1 iff the sum exceeds 255; with x = F the sum stays in VF (R157). -/
def Obligations.AddSetsCarryThenSum : Prop :=
  Encoded 0x8004 0xF00F (fun w => .addReg (xField w) (yField w)) ∧
  ∀ (x y : RegIdx) (s : State), ∃ t, exec (.addReg x y) s = .next t ∧ t.pc = s.pc + 2 ∧ t.status = s.status ∧
    (t.reg x).toNat = ((s.reg x).toNat + (s.reg y).toNat) % 256 ∧
    (x ≠ vf → t.reg vf = if (s.reg x).toNat + (s.reg y).toNat > 255 then 1 else 0) ∧
    (x = y → x ≠ vf → t.reg vf = if (s.reg x).getLsbD 7 then 1 else 0)

/-- SUB Vx,Vy: the difference modulo 256, VF = 1 iff Vx > Vy strictly; with x = F the difference stays in VF (R158). -/
def Obligations.SubSetsNoBorrowThenDifference : Prop :=
  Encoded 0x8005 0xF00F (fun w => .subReg (xField w) (yField w)) ∧
  ∀ (x y : RegIdx) (s : State), ∃ t, exec (.subReg x y) s = .next t ∧ t.pc = s.pc + 2 ∧ t.status = s.status ∧
    (t.reg x).toNat = ((s.reg x).toNat + 256 - (s.reg y).toNat) % 256 ∧
    (x ≠ vf → t.reg vf = if (s.reg x).toNat > (s.reg y).toNat then 1 else 0)

/-- SUBN Vx,Vy: the reverse difference; VF = 1 iff Vy > the original Vx, written last, so that it stays with x = F too
(R160; C2, D2, D3). -/
def Obligations.SubnComparesWithTheOriginal : Prop :=
  Encoded 0x8007 0xF00F (fun w => .subnReg (xField w) (yField w)) ∧
  ∀ (x y : RegIdx) (s : State), ∃ t, exec (.subnReg x y) s = .next t ∧ t.pc = s.pc + 2 ∧ t.status = s.status ∧
    (x ≠ vf → (t.reg x).toNat = ((s.reg y).toNat + 256 - (s.reg x).toNat) % 256) ∧
    t.reg vf = if (s.reg y).toNat > (s.reg x).toNat then 1 else 0

/-- SHR and SHL: Vx shifted by one, VF the bit shifted out, with x = F the shifted value stays in VF; the y field selects
nothing (R97, R159, R161; D3, D7). -/
def Obligations.ShiftsSetTheBitShiftedOut : Prop :=
  (Encoded 0x8006 0xF00F (fun w => .shr (xField w) (yField w)) ∧
    Encoded 0x800E 0xF00F (fun w => .shl (xField w) (yField w))) ∧
  ∀ (x y : RegIdx) (s : State),
    (∃ t, exec (.shr x y) s = .next t ∧ t.pc = s.pc + 2 ∧ (t.reg x).toNat = (s.reg x).toNat / 2 ∧
      (x ≠ vf → (t.reg vf).toNat = (s.reg x).toNat % 2) ∧ ∀ y' : RegIdx, exec (.shr x y') s = .next t) ∧
    (∃ t, exec (.shl x y) s = .next t ∧ t.pc = s.pc + 2 ∧ (t.reg x).toNat = (s.reg x).toNat * 2 % 256 ∧
      (x ≠ vf → (t.reg vf).toNat = (s.reg x).toNat / 128) ∧ ∀ y' : RegIdx, exec (.shl x y') s = .next t)

/-- RND Vx,kk: one draw, masked; the byte is the provider's next one, an injected byte where there is one and else a free
value of which nothing is known (R162, R287; D28, log 2). -/
def Obligations.RndMasksOneDraw : Prop :=
  Encoded 0xC000 0xF000 (fun w => .rnd (xField w) (kkField w)) ∧
  ∀ (x : RegIdx) (kk : Byte) (s : State), ∃ t, exec (.rnd x kk) s = .next t ∧ t.pc = s.pc + 2 ∧
    (∀ b rest, s.provided = b :: rest → t.reg x = b &&& kk ∧ t.provided = rest) ∧
    (s.provided = [] → t.reg x = Config.randomByte s.draws &&& kk ∧ t.provided = []) ∧
    t.draws = s.draws + 1 ∧ (kk = 0 → t.reg x = 0) ∧
    OnlyChanges (fun p => p = .reg x ∨ p = .pc ∨ p = .draws ∨ p = .provided) s t

/-- The frame of the instructions that write one register and no flag: the destination and PC (R12, D4). -/
def Obligations.OneRegisterInstructionsFrame : Prop :=
  ∀ (x y : RegIdx) (kk : Byte) (s : State),
    ∀ i ∈ [Instr.ldImm x kk, .addImm x kk, .ldReg x y, .orReg x y, .andReg x y, .xorReg x y, .ldVxDt x],
      ∃ t, exec i s = .next t ∧ OnlyChanges (fun p => p = .reg x ∨ p = .pc) s t

/-- The frame of the instructions that write a register and the flag: the destination, VF and PC (R12, R22, D4). -/
def Obligations.FlagInstructionsFrame : Prop :=
  ∀ (x y : RegIdx) (s : State),
    ∀ i ∈ [Instr.addReg x y, .subReg x y, .shr x y, .subnReg x y, .shl x y],
      ∃ t, exec i s = .next t ∧ OnlyChanges (fun p => p = .reg x ∨ p = .reg vf ∨ p = .pc) s t

/-! ### Index register and memory -/

/-- LD I,nnn and LD F,Vx: I takes the address, or five times the register, unmasked; from 16 on it points past the glyph
table (R190, R192). -/
def Obligations.IndexLoads : Prop :=
  (Encoded 0xA000 0xF000 (fun w => .ldI (nnnField w)) ∧ Encoded 0xF029 0xF0FF (fun w => .ldF (xField w))) ∧
  ∀ (nnn : Addr12) (x : RegIdx) (s : State),
    (∃ t, exec (.ldI nnn) s = .next t ∧ t.i.toNat = nnn.toNat ∧ t.pc = s.pc + 2 ∧ t.status = s.status ∧
      ∀ k, t.reg k = s.reg k) ∧
    (∃ t, exec (.ldF x) s = .next t ∧ t.i.toNat = (s.reg x).toNat * 5 ∧ t.pc = s.pc + 2 ∧ t.status = s.status ∧
      (∀ k, t.reg k = s.reg k) ∧ (16 ≤ (s.reg x).toNat → 0x050 ≤ t.i.toNat ∧ t.i.toNat ≤ 0x4FB))

/-- ADD I,Vx: modulo 65536, no flag, no halt (R191; D4, D11). -/
def Obligations.IndexAddWraps : Prop :=
  Encoded 0xF01E 0xF0FF (fun w => .addI (xField w)) ∧
  ∀ (x : RegIdx) (s : State), ∃ t, exec (.addI x) s = .next t ∧ t.pc = s.pc + 2 ∧
    t.i.toNat = (s.i.toNat + (s.reg x).toNat) % 65536 ∧ t.reg vf = s.reg vf ∧ t.status = s.status

/-- The frame of the instructions that write I: I and PC (R12, D4). -/
def Obligations.IndexInstructionsFrame : Prop :=
  ∀ (nnn : Addr12) (x : RegIdx) (s : State),
    ∀ i ∈ [Instr.ldI nnn, .addI x, .ldF x],
      ∃ t, exec i s = .next t ∧ OnlyChanges (fun p => p = .i ∨ p = .pc) s t

/-- LD B,Vx: the three decimal digits at I, I+1, I+2, and nothing else but PC; out of bounds, nothing but Status changes
(R68, R193; D9). The canonical form of the memory is the invariant's. -/
def Obligations.BcdStoresThreeDigits : Prop :=
  Encoded 0xF033 0xF0FF (fun w => .ldB (xField w)) ∧
  ∀ (x : RegIdx) (s : State), s.mem.wf = true →
    (s.i.toNat + 2 < 4096 →
      ∃ t, exec (.ldB x) s = .next t ∧ t.pc = s.pc + 2 ∧
        (t.mem.read s.i.toNat).toNat = (s.reg x).toNat / 100 ∧
        (t.mem.read (s.i.toNat + 1)).toNat = (s.reg x).toNat / 10 % 10 ∧
        (t.mem.read (s.i.toNat + 2)).toNat = (s.reg x).toNat % 10 ∧
        OnlyChanges (fun p => p = .pc ∨ ∃ k, k < 3 ∧ p = .byte (s.i.toNat + k)) s t) ∧
    (4096 ≤ s.i.toNat + 2 → exec (.ldB x) s = .next { s with status := .halted .outOfBounds })

/-- LD [I],Vx: V0..Vx at I..I+x, and nothing else but PC; out of bounds, nothing but Status changes (R68, R194; D9, D34). -/
def Obligations.BlockStoreWritesRegisters : Prop :=
  Encoded 0xF055 0xF0FF (fun w => .storeRegs (xField w)) ∧
  ∀ (x : RegIdx) (s : State), s.mem.wf = true →
    (s.i.toNat + x.val < 4096 →
      ∃ t, exec (.storeRegs x) s = .next t ∧ t.pc = s.pc + 2 ∧
        (∀ k : RegIdx, k ≤ x → t.mem.read (s.i.toNat + k.val) = s.reg k) ∧
        OnlyChanges (fun p => p = .pc ∨ ∃ k, k ≤ x.val ∧ p = .byte (s.i.toNat + k)) s t) ∧
    (4096 ≤ s.i.toNat + x.val → exec (.storeRegs x) s = .next { s with status := .halted .outOfBounds })

/-- LD Vx,[I]: V0..Vx from I..I+x, and nothing else but PC; out of bounds, nothing but Status changes (R68, R195; D9,
D34). -/
def Obligations.BlockLoadReadsRegisters : Prop :=
  Encoded 0xF065 0xF0FF (fun w => .loadRegs (xField w)) ∧
  ∀ (x : RegIdx) (s : State),
    (s.i.toNat + x.val < 4096 →
      ∃ t, exec (.loadRegs x) s = .next t ∧ t.pc = s.pc + 2 ∧
        (∀ k : RegIdx, k ≤ x → t.reg k = s.mem.read (s.i.toNat + k.val)) ∧
        OnlyChanges (fun p => p = .pc ∨ ∃ k, k ≤ x ∧ p = .reg k) s t) ∧
    (4096 ≤ s.i.toNat + x.val → exec (.loadRegs x) s = .next { s with status := .halted .outOfBounds })

/-- A block store and then a block load with the same I and x give every register back (the source's round trip; R194,
R195; D34). -/
def Obligations.StoreThenLoadGivesRegistersBack : Prop :=
  ∀ (x : RegIdx) (s : State), s.mem.wf = true → s.i.toNat + x.val < 4096 →
    ∃ t u, exec (.storeRegs x) s = .next t ∧ exec (.loadRegs x) t = .next u ∧
      (∀ k, u.reg k = s.reg k) ∧ u.i = s.i ∧ u.pc = s.pc + 4 ∧ u.status = s.status

/-- A store is seen by the very next fetch: two registers stored where PC points next are the word fetched, so code that a
program writes is the code it runs (R74, R77, R325, which the spec marks as derived). -/
def Obligations.StoredCodeIsFetchedNext : Prop :=
  ∀ (x j k : RegIdx) (s t : State), s.mem.wf = true → s.i.toNat + x.val < 4096 → k.val = j.val + 1 → k ≤ x →
    exec (.storeRegs x) s = .next t → t.pc.toNat = s.i.toNat + j.val →
    t.fetch = .ok (wordOfBytes (s.reg j) (s.reg k))

/-! ### Display -/

/-- CLS: every pixel dark, nothing else but PC (R12, R220). -/
def Obligations.ClearScreenDarkensEveryPixel : Prop :=
  Encoded 0x00E0 0xFFFF (fun _ => .cls) ∧
  ∀ s : State, ∃ t, exec .cls s = .next t ∧ t.pc = s.pc + 2 ∧
    (∀ x y, t.fb.pixel x y = false) ∧ OnlyChanges (fun p => p = .pc ∨ ∃ x y, p = .pixel x y) s t

/-- DRW Vx,Vy,n: each pixel of the wrapped 8 × n box is XORed with its sprite bit, bit 7 leftmost; VF = 1 iff a pixel of the
box was lit before, whatever its sprite bit, else 0; nothing else but PC changes; out of bounds, nothing but Status changes
(R68, R221, R222, R223; D9, D15, D16, D17, D18). -/
def Obligations.DrawXorsTheWrappedBox : Prop :=
  Encoded 0xD000 0xF000 (fun w => .drw (xField w) (yField w) (nField w)) ∧
  ∀ (x y : RegIdx) (n : Nat) (s : State), n ≤ 15 →
    (InMemory s.i.toNat n →
      ∃ t, exec (.drw x y n) s = .next t ∧ t.pc = s.pc + 2 ∧
        (∀ r c, r < n → c < 8 →
          t.fb.pixel (((s.reg x).toNat % 64 + c) % 64) (((s.reg y).toNat % 32 + r) % 32) =
            (s.fb.pixel (((s.reg x).toNat % 64 + c) % 64) (((s.reg y).toNat % 32 + r) % 32) ^^
              (s.mem.read (s.i.toNat + r)).getLsbD (7 - c))) ∧
        (t.reg vf = 1 ↔ ∃ r c, r < n ∧ c < 8 ∧
          s.fb.pixel (((s.reg x).toNat % 64 + c) % 64) (((s.reg y).toNat % 32 + r) % 32) = true) ∧
        (t.reg vf = 0 ∨ t.reg vf = 1) ∧
        OnlyChanges (fun p => p = .pc ∨ p = .reg vf ∨
          ∃ a b, p = .pixel a b ∧ ∃ r c, r < n ∧ c < 8 ∧
            a.val = ((s.reg x).toNat % 64 + c) % 64 ∧ b.val = ((s.reg y).toNat % 32 + r) % 32) s t) ∧
    (¬ InMemory s.i.toNat n → exec (.drw x y n) s = .next { s with status := .halted .outOfBounds })

/-- Drawing a sprite twice at one place gives the framebuffer back, and the second draw's VF is 1 iff some pixel of the box
differed from its sprite bit before the first (R221, corner cases, marked derived). With x or y = F the first draw would
move the second, since VF holds the coordinate. -/
def Obligations.DrawingTwiceGivesPixelsBack : Prop :=
  ∀ (x y : RegIdx) (n : Nat) (s : State), n ≤ 15 → x ≠ vf → y ≠ vf → InMemory s.i.toNat n →
    ∃ t u, exec (.drw x y n) s = .next t ∧ exec (.drw x y n) t = .next u ∧
      (∀ a b, u.fb.pixel a b = s.fb.pixel a b) ∧
      (u.reg vf = 1 ↔ ∃ r c, r < n ∧ c < 8 ∧
        s.fb.pixel (((s.reg x).toNat % 64 + c) % 64) (((s.reg y).toNat % 32 + r) % 32) ≠
          (s.mem.read (s.i.toNat + r)).getLsbD (7 - c))

/-! ### Keypad and timers -/

/-- SKP and SKNP: skip by the key of index Vx, nothing but PC changing; an index above 15 halts with BadKeyIndex (R240,
R241, R246; D19). -/
def Obligations.KeySkipsReadTheMask : Prop :=
  (Encoded 0xE09E 0xF0FF (fun w => .skp (xField w)) ∧ Encoded 0xE0A1 0xF0FF (fun w => .sknp (xField w))) ∧
  ∀ (x : RegIdx) (s : State),
    ((s.reg x).toNat ≤ 15 →
      (∃ t, exec (.skp x) s = .next t ∧ OnlyChanges (fun p => p = .pc) s t ∧
        t.pc = if s.keys.getLsbD (s.reg x).toNat then s.pc + 4 else s.pc + 2) ∧
      (∃ t, exec (.sknp x) s = .next t ∧ OnlyChanges (fun p => p = .pc) s t ∧
        t.pc = if s.keys.getLsbD (s.reg x).toNat then s.pc + 2 else s.pc + 4)) ∧
    (15 < (s.reg x).toNat →
      exec (.skp x) s = .next { s with status := .halted .badKeyIndex } ∧
      exec (.sknp x) s = .next { s with status := .halted .badKeyIndex })

/-- LD Vx,K: with no key down nothing changes, PC included; else Vx takes the lowest index down (R243, R290; D20). -/
def Obligations.KeyWaitTakesTheLowestKey : Prop :=
  Encoded 0xF00A 0xF0FF (fun w => .ldVxK (xField w)) ∧
  ∀ (x : RegIdx) (s : State),
    (s.keys = 0 → exec (.ldVxK x) s = .next s) ∧
    (∀ k : Fin 16, s.keys.getLsbD k.val = true → (∀ j : Fin 16, j < k → s.keys.getLsbD j.val = false) →
      ∃ t, exec (.ldVxK x) s = .next t ∧ (t.reg x).toNat = k.val ∧ t.pc = s.pc + 2 ∧
        OnlyChanges (fun p => p = .reg x ∨ p = .pc) s t)

/-- LD Vx,DT and LD DT,Vx (R242, R244), and LD ST,Vx (R245) with the tone signal, on iff the value is not 0 (R281): the
value moved, no halt. -/
def Obligations.TimerMoves : Prop :=
  (Encoded 0xF007 0xF0FF (fun w => .ldVxDt (xField w)) ∧ Encoded 0xF015 0xF0FF (fun w => .ldDtVx (xField w)) ∧
    Encoded 0xF018 0xF0FF (fun w => .ldStVx (xField w))) ∧
  ∀ (x : RegIdx) (s : State),
    (∃ t, exec (.ldVxDt x) s = .next t ∧ t.reg x = s.dt ∧ t.pc = s.pc + 2 ∧ t.status = s.status ∧
      (x ≠ vf → t.reg vf = s.reg vf)) ∧
    (∃ t, exec (.ldDtVx x) s = .next t ∧ t.dt = s.reg x ∧ t.pc = s.pc + 2 ∧ t.status = s.status ∧
      (∀ k, t.reg k = s.reg k) ∧ (s.reg x = 0 → (t.tickTimers).dt = 0)) ∧
    (∃ t, exec (.ldStVx x) s = .next t ∧ t.st = s.reg x ∧ t.pc = s.pc + 2 ∧ t.status = s.status ∧
      (∀ k, t.reg k = s.reg k) ∧ (t.tone = true ↔ s.reg x ≠ 0))

/-- The frame of the instructions that write a timer: that timer and PC (R12, D4). -/
def Obligations.TimerInstructionsFrame : Prop :=
  ∀ (x : RegIdx) (s : State),
    (∃ t, exec (.ldDtVx x) s = .next t ∧ OnlyChanges (fun p => p = .dt ∨ p = .pc) s t) ∧
    (∃ t, exec (.ldStVx x) s = .next t ∧ OnlyChanges (fun p => p = .st ∨ p = .pc) s t)

/-! ### The host's transactions -/

/-- `tickTimers()`: each timer above 0 goes down by 1, a timer at 0 stays, nothing else changes (R279). -/
def Obligations.TickCountsBothTimersDown : Prop :=
  ∀ s : State,
    (s.tickTimers.dt.toNat = if s.dt.toNat > 0 then s.dt.toNat - 1 else 0) ∧
    (s.tickTimers.st.toNat = if s.st.toNat > 0 then s.st.toNat - 1 else 0) ∧
    OnlyChanges (fun p => p = .dt ∨ p = .st) s s.tickTimers

/-- `setKeyDown` and `setKeyUp`: one bit of the mask, both idempotent, nothing else; an index above 15 is ignored (R283;
D21). -/
def Obligations.KeyTransactionsSetOneBit : Prop :=
  ∀ (s : State) (k : Nat),
    (k < 16 →
      (∀ j, (s.setKeyDown k).keyDown j = (s.keyDown j || decide (j = k))) ∧
      (∀ j, (s.setKeyUp k).keyDown j = (s.keyDown j && decide (j ≠ k))) ∧
      (s.setKeyDown k).setKeyDown k = s.setKeyDown k ∧ (s.setKeyUp k).setKeyUp k = s.setKeyUp k ∧
      OnlyChanges (fun p => p = .keys) s (s.setKeyDown k) ∧ OnlyChanges (fun p => p = .keys) s (s.setKeyUp k)) ∧
    (16 ≤ k → s.setKeyDown k = s ∧ s.setKeyUp k = s)

/-- A finished program, one at a jump to itself, stays as it is at every step (R292; D30). -/
def Obligations.FinishedProgramStaysPut : Prop :=
  ∀ s : State, s.schedule = [] → s.loaded = true → s.finished = true → step s = .next s

/-! ### Rules of the whole machine -/

/-- Which instructions write which state: I by LD I, ADD I and LD F only; the framebuffer by CLS and DRW; the stack by CALL
and RET; DT by LD DT; ST by LD ST; memory by LD B and LD [I]; the draws by RND; the keypad by none (R12, R23, R26, R29,
R30, R31, R66, R224). -/
def Obligations.EachStateHasItsWriters : Prop :=
  ∀ (i : Instr) (s t : State), exec i s = .next t →
    (t.i ≠ s.i → (∃ nnn, i = .ldI nnn) ∨ ∃ x, i = .addI x ∨ i = .ldF x) ∧
    ((∃ x y, t.fb.pixel x y ≠ s.fb.pixel x y) → i = .cls ∨ ∃ x y n, i = .drw x y n) ∧
    ((t.sp ≠ s.sp ∨ ∃ k, t.stackEntry k ≠ s.stackEntry k) → i = .ret ∨ ∃ nnn, i = .call nnn) ∧
    (t.dt ≠ s.dt → ∃ x, i = .ldDtVx x) ∧ (t.st ≠ s.st → ∃ x, i = .ldStVx x) ∧
    ((∃ a, t.mem.read a ≠ s.mem.read a) → ∃ x, i = .ldB x ∨ i = .storeRegs x) ∧
    ((t.draws ≠ s.draws ∨ t.provided ≠ s.provided) → ∃ x kk, i = .rnd x kk) ∧
    t.keys = s.keys ∧ t.mem.glyphs = s.mem.glyphs ∧ t.loaded = s.loaded ∧ t.schedule = s.schedule

/-- VF changes only as a flag, to 0 or 1, or as the named destination of a write: no other instruction touches it (R12, R22,
D4). -/
def Obligations.FlagRegisterChangesOnlyWhereNamed : Prop :=
  ∀ (i : Instr) (s t : State), exec i s = .next t → t.reg vf ≠ s.reg vf →
    ((t.reg vf = 0 ∨ t.reg vf = 1) ∧
      ((∃ x y, i = .addReg x y ∨ i = .subReg x y ∨ i = .shr x y ∨ i = .subnReg x y ∨ i = .shl x y) ∨
        ∃ x y n, i = .drw x y n)) ∨
    (∃ kk, i = .ldImm vf kk ∨ i = .addImm vf kk ∨ i = .rnd vf kk) ∨
    (∃ y, i = .ldReg vf y ∨ i = .orReg vf y ∨ i = .andReg vf y ∨ i = .xorReg vf y ∨ i = .addReg vf y ∨
      i = .subReg vf y ∨ i = .shr vf y ∨ i = .shl vf y) ∨
    i = .ldVxDt vf ∨ i = .ldVxK vf ∨ i = .loadRegs vf

/-- Stale stack entries affect no instruction: two states that differ only in entries at SP and above go to two states that
differ only so (R28; D33). -/
def Obligations.StaleStackEntriesAffectNothing : Prop :=
  ∀ (i : Instr) (s t : State) (v : Vector Word 16), (∀ k : Fin 16, k.val < s.sp.val → v[k.val] = s.stackEntry k) →
    exec i s = .next t →
    ∃ u, exec i { s with stack := v } = .next u ∧ u = { t with stack := u.stack } ∧
      ∀ k : Fin 16, k.val < t.sp.val → u.stackEntry k = t.stackEntry k

/-- The random-byte provider reaches no instruction but RND (R287, R12; the two fields are the model's own, log 2). -/
def Obligations.RandomBytesReachOnlyRnd : Prop :=
  ∀ (i : Instr) (s t : State) (bytes : List Byte) (d : Nat), (∀ x kk, i ≠ .rnd x kk) → exec i s = .next t →
    exec i { s with provided := bytes, draws := d } = .next { t with provided := bytes, draws := d }

/-- No instruction reads ST: from two states that differ in ST alone every instruction goes to two states that differ in ST
alone, and LD ST,Vx to one (R29). -/
def Obligations.SoundTimerIsNeverRead : Prop :=
  ∀ (i : Instr) (s t : State) (b : Byte), exec i s = .next t →
    ∃ u, exec i { s with st := b } = .next u ∧ u = { t with st := u.st } ∧ (u.st = b ∨ u = t)
end

