-- ==== Sys2Proof/Laws/Decode.lean ====
section
/-! SUPPORT. Decoding: the table's rows are disjoint, so a row that matches is the row decoded; what each format's word
has in its fields and under its mask. -/

namespace Sys2Proof

/-- Two rows whose patterns differ on the bits both fix have no word in common. -/
def Row.apart (r q : Row) : Bool := r.pattern &&& q.mask != q.pattern &&& r.mask

theorem Row.not_selects_of_apart {r q : Row} {w : Word} (h : r.apart q = true) (hr : r.selects w = true) :
    q.selects w = false := by
  by_contra hq
  simp only [Row.selects, beq_iff_eq, Bool.not_eq_false] at hr hq
  simp only [Row.apart, bne_iff_ne] at h
  apply h
  rw [← hr, ← hq, BitVec.and_assoc, BitVec.and_assoc, BitVec.and_comm r.mask]

/-- The rows are pairwise disjoint (R95). -/
theorem opcodeTable_apart : opcodeTable.Pairwise (fun r q => r.apart q = true) := by decide

theorem find_eq_of_apart {l : List Row} (hl : l.Pairwise (fun r q => r.apart q = true)) {w : Word} {r : Row}
    (hm : r ∈ l) (hr : r.selects w = true) : l.find? (fun q => q.selects w) = some r := by
  induction l with
  | nil => simp at hm
  | cons q l ih =>
    obtain ⟨hq, hl⟩ := List.pairwise_cons.1 hl
    rcases List.mem_cons.1 hm with rfl | hm
    · simp [hr]
    · have : q.selects w = false := by
        by_contra hc
        have := Row.not_selects_of_apart (hq r hm) (by simpa using hc)
        simp [hr] at this
      simp [this, ih hl hm]

/-- A word that matches a row decodes to that row's instruction (R95). -/
theorem decode_of_row {r : Row} (hm : r ∈ opcodeTable) {w : Word} (hr : r.selects w = true) :
    decode w = .instr (r.build w) := by
  rw [decode, find_eq_of_apart opcodeTable_apart hm hr]

/-- The same for a row named by its number in the table. -/
theorem decode_of_getElem {k : Nat} (hk : k < opcodeTable.length) {w : Word}
    (h : w &&& opcodeTable[k].mask = opcodeTable[k].pattern) : decode w = .instr (opcodeTable[k].build w) :=
  decode_of_row (List.getElem_mem hk) (by simpa [Row.selects] using h)

/-- A word decodes to an instruction only through a row it matches (R95). -/
theorem row_of_decode {w : Word} {i : Instr} (h : decode w = .instr i) :
    ∃ r ∈ opcodeTable, r.selects w = true ∧ r.build w = i := by
  unfold decode at h
  split at h
  · rename_i r hf
    exact ⟨r, List.mem_of_find?_eq_some hf, by simpa using List.find?_some hf, by simpa using h⟩
  · cases h

/-- A word is unknown exactly when it matches no row (R96). -/
theorem decode_unknown_iff (w : Word) : decode w = .unknown ↔ ∀ r ∈ opcodeTable, r.selects w = false := by
  unfold decode
  split
  · rename_i r hf
    simp only [reduceCtorEq, false_iff, not_forall]
    exact ⟨r, List.mem_of_find?_eq_some hf, by simpa using List.find?_some hf⟩
  · rename_i hf
    simpa using hf

/-! ### A format's word under its mask -/

theorem formatNNN_and (op : BitVec 4) (nnn : Addr12) :
    formatNNN op nnn &&& 0xF000#16 = (op ++ 0#12 : BitVec (4 + 12)) := by
  apply BitVec.eq_of_getLsbD_eq
  intro k hk
  simp only [formatNNN, BitVec.getLsbD_and, BitVec.getLsbD_append]
  interval_cases k <;> simp

theorem formatXKK_and (op : BitVec 4) (x : RegIdx) (kk : Byte) :
    formatXKK op x kk &&& 0xF000#16 = (op ++ 0#12 : BitVec (4 + 12)) := by
  apply BitVec.eq_of_getLsbD_eq
  intro k hk
  simp only [formatXKK, BitVec.getLsbD_and, BitVec.getLsbD_append]
  interval_cases k <;> simp

theorem formatXY_and (op : BitVec 4) (x y : RegIdx) (sub : BitVec 4) :
    formatXY op x y sub &&& 0xF00F#16 = (op ++ 0#8 ++ sub : BitVec (4 + 8 + 4)) := by
  apply BitVec.eq_of_getLsbD_eq
  intro k hk
  simp only [formatXY, BitVec.getLsbD_and, BitVec.getLsbD_append]
  interval_cases k <;> simp

theorem formatXYN_and (op : BitVec 4) (x y : RegIdx) (n : Nat) :
    formatXYN op x y n &&& 0xF000#16 = (op ++ 0#12 : BitVec (4 + 12)) := by
  apply BitVec.eq_of_getLsbD_eq
  intro k hk
  simp only [formatXYN, formatXY, BitVec.getLsbD_and, BitVec.getLsbD_append]
  interval_cases k <;> simp

theorem formatX_and (op : BitVec 4) (x : RegIdx) (sub : Byte) :
    formatX op x sub &&& 0xF0FF#16 = (op ++ 0#4 ++ sub : BitVec (4 + 4 + 8)) := by
  apply BitVec.eq_of_getLsbD_eq
  intro k hk
  simp only [formatX, BitVec.getLsbD_and, BitVec.getLsbD_append]
  interval_cases k <;> simp

/-! ### A format's fields -/

theorem xField_eq_of_bits {w : Word} {x : RegIdx} (h : w.extractLsb' 8 4 = BitVec.ofFin x) : xField w = x := by
  unfold xField; rw [h]

theorem yField_eq_of_bits {w : Word} {y : RegIdx} (h : w.extractLsb' 4 4 = BitVec.ofFin y) : yField w = y := by
  unfold yField; rw [h]

@[simp] theorem nnnField_formatNNN (op : BitVec 4) (nnn : Addr12) : nnnField (formatNNN op nnn) = nnn := by
  apply BitVec.eq_of_getLsbD_eq
  intro k hk
  simp only [nnnField, formatNNN, BitVec.getLsbD_extractLsb', BitVec.getLsbD_append]
  simp [hk]

@[simp] theorem xField_formatXKK (op : BitVec 4) (x : RegIdx) (kk : Byte) : xField (formatXKK op x kk) = x := by
  refine xField_eq_of_bits (BitVec.eq_of_getLsbD_eq fun k hk => ?_)
  simp only [formatXKK, BitVec.getLsbD_extractLsb', BitVec.getLsbD_append]
  interval_cases k <;> simp

@[simp] theorem kkField_formatXKK (op : BitVec 4) (x : RegIdx) (kk : Byte) : kkField (formatXKK op x kk) = kk := by
  apply BitVec.eq_of_getLsbD_eq
  intro k hk
  simp only [kkField, formatXKK, BitVec.getLsbD_extractLsb', BitVec.getLsbD_append]
  simp [hk]

@[simp] theorem xField_formatXY (op : BitVec 4) (x y : RegIdx) (sub : BitVec 4) :
    xField (formatXY op x y sub) = x := by
  refine xField_eq_of_bits (BitVec.eq_of_getLsbD_eq fun k hk => ?_)
  simp only [formatXY, BitVec.getLsbD_extractLsb', BitVec.getLsbD_append]
  interval_cases k <;> simp

@[simp] theorem yField_formatXY (op : BitVec 4) (x y : RegIdx) (sub : BitVec 4) :
    yField (formatXY op x y sub) = y := by
  refine yField_eq_of_bits (BitVec.eq_of_getLsbD_eq fun k hk => ?_)
  simp only [formatXY, BitVec.getLsbD_extractLsb', BitVec.getLsbD_append]
  interval_cases k <;> simp

@[simp] theorem xField_formatX (op : BitVec 4) (x : RegIdx) (sub : Byte) : xField (formatX op x sub) = x := by
  refine xField_eq_of_bits (BitVec.eq_of_getLsbD_eq fun k hk => ?_)
  simp only [formatX, BitVec.getLsbD_extractLsb', BitVec.getLsbD_append]
  interval_cases k <;> simp

theorem nField_formatXY (op : BitVec 4) (x y : RegIdx) (sub : BitVec 4) : nField (formatXY op x y sub) = sub.toNat := by
  have h : (formatXY op x y sub).extractLsb' 0 4 = sub := by
    apply BitVec.eq_of_getLsbD_eq
    intro k hk
    simp only [formatXY, BitVec.getLsbD_extractLsb', BitVec.getLsbD_append]
    interval_cases k <;> simp
  rw [nField, h]

/-- The row count is read back where it fits the field (R93). -/
theorem nField_formatXYN (op : BitVec 4) (x y : RegIdx) {n : Nat} (h : n ≤ 15) : nField (formatXYN op x y n) = n := by
  rw [formatXYN, nField_formatXY]
  simp; omega

/-- The two bytes of a word, put together again (R63, R64). -/
theorem wordOfBytes_split (w : Word) : wordOfBytes (w.extractLsb' 8 8) (w.extractLsb' 0 8) = w := by
  apply BitVec.eq_of_getLsbD_eq
  intro k hk
  simp only [wordOfBytes, BitVec.getLsbD_append, BitVec.getLsbD_extractLsb']
  by_cases h : k < 8
  · simp [h]
  · simp [h, show k - 8 < 8 by omega, show 8 + (k - 8) = k by omega]

end Sys2Proof
end

