-- ==== Sys2Proof/Laws/Display.lean ====
section
/-! SUPPORT. The framebuffer: what a pixel is after an XOR of one pixel, of a sprite row and of a sprite; when a draw
collides. -/

namespace Sys2Proof.Machine

@[simp] theorem pixel_blank (a b : Nat) : Framebuffer.blank.pixel a b = false := by
  simp [Framebuffer.blank, Framebuffer.pixel]

theorem pixelMask_getLsbD (x : Nat) (bit : Bool) (j : Nat) :
    (pixelMask x bit).getLsbD j = (bit && decide (j = x % 64)) := by
  cases bit
  · simp [pixelMask]
  · have hx : x % 64 < 64 := Nat.mod_lt _ (by decide)
    simp only [pixelMask, if_true, BitVec.getLsbD_twoPow, hx, decide_true, Bool.true_and]
    exact decide_eq_decide.2 eq_comm

/-- A pixel after the XOR of one pixel: flipped where it is that pixel and the bit is 1, unchanged elsewhere (R221). -/
theorem pixel_xorPixel (f : Framebuffer) (x y : Nat) (bit : Bool) (a b : Nat) :
    (f.xorPixel x y bit).pixel a b =
      (f.pixel a b ^^ (bit && decide (a % 64 = x % 64 ∧ b % 32 = y % 32))) := by
  by_cases hb : b % 32 = y % 32
  · simp [Framebuffer.xorPixel, Framebuffer.pixel, hb, pixelMask_getLsbD]
  · simp [Framebuffer.xorPixel, Framebuffer.pixel, hb, Vector.getElem_set_ne _ _ (Ne.symm hb)]

/-- Coordinates wrap (R31). -/
theorem pixel_congr (f : Framebuffer) {a a' b b' : Nat} (ha : a % 64 = a' % 64) (hb : b % 32 = b' % 32) :
    f.pixel a b = f.pixel a' b' := by
  simp [Framebuffer.pixel, ha, hb]

/-! ### One sprite row -/

/-- A pixel that the columns do not touch is unchanged. -/
theorem drawColumns_outside {x0 y a b : Nat} {row : Byte} {c k : Nat} {p : Framebuffer × Bool}
    (h : ∀ j, c ≤ j → j < c + k → ¬(a % 64 = (x0 + j) % 64 ∧ b % 32 = y % 32)) :
    (drawColumns x0 y row c k p).1.pixel a b = p.1.pixel a b := by
  induction k generalizing c p with
  | zero => rfl
  | succ k ih =>
    have h0 := h c (Nat.le_refl c) (by omega)
    rw [drawColumns, ih fun j h1 h2 => h j (by omega) (by omega)]
    simp [drawPixel, pixel_xorPixel, h0]

/-- A pixel that the columns touch is XORed with its sprite bit, once. -/
theorem drawColumns_inside {x0 y : Nat} {row : Byte} {c k j : Nat} {p : Framebuffer × Bool} (hk : c + k ≤ 8)
    (h1 : c ≤ j) (h2 : j < c + k) :
    (drawColumns x0 y row c k p).1.pixel (x0 + j) y = (p.1.pixel (x0 + j) y ^^ row.getLsbD (7 - j)) := by
  induction k generalizing c p with
  | zero => omega
  | succ k ih =>
    rw [drawColumns]
    by_cases hj : j = c
    · subst hj
      rw [drawColumns_outside fun l hl1 hl2 => by omega]
      simp [drawPixel, pixel_xorPixel]
    · rw [ih (by omega) (by omega) (by omega)]
      have : ¬((x0 + j) % 64 = (x0 + c) % 64) := by omega
      simp [drawPixel, pixel_xorPixel, this]

/-- The flag after the columns: raised before, or one of the touched pixels was lit (R223). -/
theorem drawColumns_hit {x0 y : Nat} {row : Byte} {c k : Nat} {p : Framebuffer × Bool} (hk : c + k ≤ 8) :
    (drawColumns x0 y row c k p).2 = true ↔
      p.2 = true ∨ ∃ j, c ≤ j ∧ j < c + k ∧ p.1.pixel (x0 + j) y = true := by
  induction k generalizing c p with
  | zero =>
    simp only [drawColumns]
    exact ⟨.inl, fun h => h.elim id fun ⟨j, h1, h2, _⟩ => absurd h2 (by omega)⟩
  | succ k ih =>
    rw [drawColumns, ih (by omega)]
    simp only [drawPixel, Bool.or_eq_true, pixel_xorPixel]
    constructor
    · rintro ((h | h) | ⟨j, h1, h2, h3⟩)
      · exact .inl h
      · exact .inr ⟨c, Nat.le_refl c, by omega, h⟩
      · have hne : ¬((x0 + j) % 64 = (x0 + c) % 64) := by omega
        exact .inr ⟨j, by omega, by omega, by simpa [hne] using h3⟩
    · rintro (h | ⟨j, h1, h2, h3⟩)
      · exact .inl (.inl h)
      · by_cases hj : j = c
        · subst hj; exact .inl (.inr h3)
        · have hne : ¬((x0 + j) % 64 = (x0 + c) % 64) := by omega
          exact .inr ⟨j, by omega, by omega, by simpa [hne] using h3⟩

/-! ### A sprite -/

/-- A pixel outside the sprite's box is unchanged. -/
theorem drawRows_outside {x0 y a b : Nat} {rows : List Byte} {p : Framebuffer × Bool}
    (h : ∀ r, r < rows.length → ∀ j, j < 8 → ¬(a % 64 = (x0 + j) % 64 ∧ b % 32 = (y + r) % 32)) :
    (drawRows x0 y rows p).1.pixel a b = p.1.pixel a b := by
  induction rows generalizing y p with
  | nil => rfl
  | cons row rest ih =>
    rw [drawRows, ih fun r hr j hj => by
      have := h (r + 1) (by simpa using hr) j hj
      rwa [show y + (r + 1) = y + 1 + r by omega] at this]
    exact drawColumns_outside fun j _ hj => by simpa using h 0 (by simp) j (by omega)

/-- A pixel of the sprite's box is XORed with its sprite bit, once (R221, R222). -/
theorem drawRows_inside {x0 y : Nat} {rows : List Byte} {p : Framebuffer × Bool} (hl : rows.length ≤ 32) {r j : Nat}
    (hr : r < rows.length) (hj : j < 8) :
    (drawRows x0 y rows p).1.pixel (x0 + j) (y + r) =
      (p.1.pixel (x0 + j) (y + r) ^^ rows[r].getLsbD (7 - j)) := by
  induction rows generalizing y r p with
  | nil => simp at hr
  | cons row rest ih =>
    simp only [List.length_cons] at hl hr
    rw [drawRows]
    cases r with
    | zero =>
      rw [drawRows_outside fun l hl' m _ => by omega]
      simpa using drawColumns_inside (by omega) (Nat.zero_le j) (by omega)
    | succ r =>
      rw [show y + (r + 1) = y + 1 + r by omega, ih (by omega) (by omega)]
      rw [drawColumns_outside fun l _ _ => by omega]
      simp

/-- The flag after the sprite: raised before, or a pixel of the box was lit (R221, R223). -/
theorem drawRows_hit {x0 y : Nat} {rows : List Byte} {p : Framebuffer × Bool} (hl : rows.length ≤ 32) :
    (drawRows x0 y rows p).2 = true ↔
      p.2 = true ∨ ∃ r, r < rows.length ∧ ∃ j, j < 8 ∧ p.1.pixel (x0 + j) (y + r) = true := by
  induction rows generalizing y p with
  | nil => simp [drawRows]
  | cons row rest ih =>
    simp only [List.length_cons] at hl ⊢
    rw [drawRows, ih (by omega), drawColumns_hit (by omega)]
    constructor
    · rintro ((h | ⟨j, -, hj, h⟩) | ⟨r, hr, j, hj, h⟩)
      · exact .inl h
      · exact .inr ⟨0, by omega, j, by omega, by simpa using h⟩
      · rw [drawColumns_outside fun l _ _ => by omega] at h
        exact .inr ⟨r + 1, by omega, j, hj, by rwa [show y + (r + 1) = y + 1 + r by omega]⟩
    · rintro (h | ⟨r, hr, j, hj, h⟩)
      · exact .inl (.inl h)
      · cases r with
        | zero => exact .inl (.inr ⟨j, Nat.zero_le j, by omega, by simpa using h⟩)
        | succ r =>
          refine .inr ⟨r, by omega, j, hj, ?_⟩
          rw [drawColumns_outside fun l _ _ => by omega]
          rwa [show y + (r + 1) = y + 1 + r by omega] at h

end Sys2Proof.Machine
end

