-- ==== Sys2Proof/Laws/Memory.lean ====
section
/-! SUPPORT. Memory: a read after a write, and that every memory operation keeps the canonical form `Memory.wf`. -/

namespace Sys2Proof.Machine

/-! ### Cells -/

theorem lookupCell_insertCell_same (a : Nat) (b : Byte) (cs : List Host.Cell) :
    lookupCell a (insertCell a b cs) = some b := by
  induction cs with
  | nil => simp [insertCell, lookupCell]
  | cons c cs ih =>
    simp only [insertCell]
    split
    · simp [lookupCell]
    · split
      · simp [lookupCell]
      · rename_i h; simp [lookupCell, h, ih]

theorem lookupCell_insertCell_other {a a' : Nat} (h : a' ≠ a) (b : Byte) (cs : List Host.Cell) :
    lookupCell a' (insertCell a b cs) = lookupCell a' cs := by
  induction cs with
  | nil => simp [insertCell, lookupCell, Ne.symm h]
  | cons c cs ih =>
    simp only [insertCell]
    split
    · simp [lookupCell, Ne.symm h]
    · split
      · rename_i hc; simp [lookupCell, Ne.symm h, hc]
      · simp [lookupCell, ih]

theorem lookupCell_eraseCell_other {a a' : Nat} (h : a' ≠ a) (cs : List Host.Cell) :
    lookupCell a' (eraseCell a cs) = lookupCell a' cs := by
  induction cs with
  | nil => rfl
  | cons c cs ih =>
    simp only [eraseCell]
    split
    · rename_i hc; simp [lookupCell, hc, Ne.symm h]
    · simp [lookupCell, ih]

theorem lookupCell_of_all_above {a : Nat} {cs : List Host.Cell} (h : ∀ d ∈ cs, a < d.1) : lookupCell a cs = none := by
  induction cs with
  | nil => rfl
  | cons c cs ih =>
    have hc : c.1 ≠ a := by have := h c (by simp); omega
    simp [lookupCell, hc, ih fun d hd => h d (by simp [hd])]

theorem risingCells_cons {c : Host.Cell} {cs : List Host.Cell} :
    risingCells (c :: cs) = true ↔ (∀ d ∈ cs, c.1 < d.1) ∧ risingCells cs = true := by
  simp [risingCells]

theorem lookupCell_eraseCell_same {a : Nat} {cs : List Host.Cell} (h : risingCells cs = true) :
    lookupCell a (eraseCell a cs) = none := by
  induction cs with
  | nil => rfl
  | cons c cs ih =>
    obtain ⟨hc, hr⟩ := risingCells_cons.1 h
    simp only [eraseCell]
    split
    · rename_i e; exact lookupCell_of_all_above fun d hd => e ▸ hc d hd
    · rename_i e; simp [lookupCell, e, ih hr]

theorem mem_of_mem_eraseCell {a : Nat} {d : Host.Cell} {cs : List Host.Cell} (h : d ∈ eraseCell a cs) : d ∈ cs := by
  induction cs with
  | nil => simp [eraseCell] at h
  | cons c cs ih =>
    simp only [eraseCell] at h
    split at h
    · simp [h]
    · rcases List.mem_cons.1 h with rfl | h
      · simp
      · simp [ih h]

theorem mem_of_mem_insertCell {a : Nat} {b : Byte} {d : Host.Cell} {cs : List Host.Cell}
    (h : d ∈ insertCell a b cs) : d = (a, b) ∨ d ∈ cs := by
  induction cs with
  | nil => simpa [insertCell] using h
  | cons c cs ih =>
    simp only [insertCell] at h
    split at h
    · simpa using h
    · split at h
      · rcases List.mem_cons.1 h with rfl | h <;> simp_all
      · rcases List.mem_cons.1 h with rfl | h
        · simp
        · rcases ih h with rfl | h <;> simp_all

theorem risingCells_eraseCell {a : Nat} {cs : List Host.Cell} (h : risingCells cs = true) :
    risingCells (eraseCell a cs) = true := by
  induction cs with
  | nil => rfl
  | cons c cs ih =>
    obtain ⟨hc, hr⟩ := risingCells_cons.1 h
    simp only [eraseCell]
    split
    · exact hr
    · exact risingCells_cons.2 ⟨fun d hd => hc d (mem_of_mem_eraseCell hd), ih hr⟩

theorem risingCells_insertCell {a : Nat} {b : Byte} {cs : List Host.Cell} (h : risingCells cs = true) :
    risingCells (insertCell a b cs) = true := by
  induction cs with
  | nil => rfl
  | cons c cs ih =>
    obtain ⟨hc, hr⟩ := risingCells_cons.1 h
    simp only [insertCell]
    split
    · rename_i hlt
      refine risingCells_cons.2 ⟨fun d hd => ?_, h⟩
      rcases List.mem_cons.1 hd with rfl | hd
      · exact hlt
      · exact Nat.lt_trans hlt (hc d hd)
    · split
      · rename_i he
        exact risingCells_cons.2 ⟨fun d hd => by have := hc d hd; simp only; omega, hr⟩
      · rename_i hlt he
        refine risingCells_cons.2 ⟨fun d hd => ?_, ih hr⟩
        rcases mem_of_mem_insertCell hd with rfl | hd
        · simp only; omega
        · exact hc d hd

/-! ### The memory -/

/-- The canonical form, spelled out. -/
theorem Memory.wf_iff {m : Memory} :
    m.wf = true ↔ risingCells m.cells = true ∧ ∀ c ∈ m.cells, c.1 < Config.memSize ∧ c.2 ≠ m.unlisted c.1 := by
  simp [Memory.wf]

@[simp] theorem Memory.write_glyphs (m : Memory) (a : Nat) (b : Byte) : (m.write a b).glyphs = m.glyphs := by
  unfold Memory.write; split <;> rfl

@[simp] theorem Memory.write_unlisted (m : Memory) (a : Nat) (b : Byte) (x : Nat) :
    (m.write a b).unlisted x = m.unlisted x := by
  simp [Memory.unlisted]

/-- A write keeps the canonical form. -/
theorem Memory.wf_write {m : Memory} (h : m.wf = true) (a : Nat) (b : Byte) : (m.write a b).wf = true := by
  obtain ⟨hr, hc⟩ := wf_iff.1 h
  refine wf_iff.2 ⟨?_, fun c hm => ?_⟩
  · unfold Memory.write
    split
    · dsimp only
      split
      · exact risingCells_eraseCell hr
      · exact risingCells_insertCell hr
    · exact hr
  · rw [write_unlisted]
    unfold Memory.write at hm
    split at hm
    · rename_i ha
      dsimp only at hm
      split at hm
      · exact hc c (mem_of_mem_eraseCell hm)
      · rename_i hb
        rcases mem_of_mem_insertCell hm with rfl | hm
        · exact ⟨ha, hb⟩
        · exact hc c hm
    · exact hc c hm

/-- A byte written inside the memory is read back (R67). -/
theorem Memory.read_write_same {m : Memory} (h : m.wf = true) {a : Nat} (ha : a < Config.memSize) (b : Byte) :
    (m.write a b).read a = b := by
  obtain ⟨hr, -⟩ := wf_iff.1 h
  rw [Memory.read, write_unlisted]
  by_cases hb : b = m.unlisted a
  · simp [Memory.write, ha, hb, lookupCell_eraseCell_same hr]
  · simp [Memory.write, ha, hb, lookupCell_insertCell_same]

/-- A write leaves every other address alone (R67). -/
theorem Memory.read_write_other {a x : Nat} (h : x ≠ a) (m : Memory) (b : Byte) :
    (m.write a b).read x = m.read x := by
  rw [Memory.read, Memory.read, write_unlisted]
  unfold Memory.write
  split
  · dsimp only
    split
    · rw [lookupCell_eraseCell_other h]
    · rw [lookupCell_insertCell_other h]
  · rfl

/-- A write outside the memory changes nothing. -/
theorem Memory.write_outside (m : Memory) {a : Nat} (h : Config.memSize ≤ a) (b : Byte) : m.write a b = m := by
  simp [Memory.write, Nat.not_lt.2 h]

/-! ### Blocks of bytes -/

@[simp] theorem Memory.writeAll_glyphs (m : Memory) (a : Nat) (bs : List Byte) : (m.writeAll a bs).glyphs = m.glyphs := by
  induction bs generalizing m a with
  | nil => rfl
  | cons b bs ih => simp [Memory.writeAll, ih]

/-- Writing a block keeps the canonical form. -/
theorem Memory.wf_writeAll {m : Memory} (h : m.wf = true) (a : Nat) (bs : List Byte) : (m.writeAll a bs).wf = true := by
  induction bs generalizing m a with
  | nil => exact h
  | cons b bs ih => exact ih (wf_write h a b) (a + 1)

/-- Every address outside a block reads as before. -/
theorem Memory.read_writeAll_outside (m : Memory) {a x : Nat} {bs : List Byte} (h : x < a ∨ a + bs.length ≤ x) :
    (m.writeAll a bs).read x = m.read x := by
  induction bs generalizing m a with
  | nil => rfl
  | cons b bs ih =>
    simp only [List.length_cons] at h
    rw [Memory.writeAll, ih _ (by omega), read_write_other (by omega)]

/-- A block's bytes are read back at ascending addresses. -/
theorem Memory.read_writeAll_inside {m : Memory} (h : m.wf = true) {a : Nat} {bs : List Byte}
    (hb : a + bs.length ≤ Config.memSize) {k : Nat} (hk : k < bs.length) :
    (m.writeAll a bs).read (a + k) = bs[k] := by
  induction bs generalizing m a k with
  | nil => simp at hk
  | cons b bs ih =>
    simp only [List.length_cons] at hb hk
    cases k with
    | zero =>
      rw [Memory.writeAll, read_writeAll_outside _ (by omega)]
      simpa using read_write_same h (a := a) (by omega) b
    | succ k =>
      rw [Memory.writeAll, show a + (k + 1) = (a + 1) + k by omega, ih (wf_write h a b) (by omega) (by omega)]
      simp

/-- The memory right after reset has the canonical form, whatever the glyph table. -/
@[simp] theorem resetWith_mem_wf (g : Vector Byte Config.glyphSize) : (State.resetWith g).mem.wf = true := rfl

end Sys2Proof.Machine
end

