-- ==== Sys2Proof/Laws/State.lean ====
section
/-! SUPPORT. One lemma per field per named update of the state, so that no proof unfolds a record update. -/

namespace Sys2Proof.Machine.State

variable (s : State)

/-! ### `setReg` -/

@[simp] theorem setReg_mem (k : RegIdx) (b : Byte) : (s.setReg k b).mem = s.mem := rfl
@[simp] theorem setReg_v (k : RegIdx) (b : Byte) : (s.setReg k b).v = s.v.set k.val b := rfl
@[simp] theorem setReg_i (k : RegIdx) (b : Byte) : (s.setReg k b).i = s.i := rfl
@[simp] theorem setReg_pc (k : RegIdx) (b : Byte) : (s.setReg k b).pc = s.pc := rfl
@[simp] theorem setReg_stack (k : RegIdx) (b : Byte) : (s.setReg k b).stack = s.stack := rfl
@[simp] theorem setReg_sp (k : RegIdx) (b : Byte) : (s.setReg k b).sp = s.sp := rfl
@[simp] theorem setReg_dt (k : RegIdx) (b : Byte) : (s.setReg k b).dt = s.dt := rfl
@[simp] theorem setReg_st (k : RegIdx) (b : Byte) : (s.setReg k b).st = s.st := rfl
@[simp] theorem setReg_keys (k : RegIdx) (b : Byte) : (s.setReg k b).keys = s.keys := rfl
@[simp] theorem setReg_fb (k : RegIdx) (b : Byte) : (s.setReg k b).fb = s.fb := rfl
@[simp] theorem setReg_status (k : RegIdx) (b : Byte) : (s.setReg k b).status = s.status := rfl
@[simp] theorem setReg_loaded (k : RegIdx) (b : Byte) : (s.setReg k b).loaded = s.loaded := rfl
@[simp] theorem setReg_provided (k : RegIdx) (b : Byte) : (s.setReg k b).provided = s.provided := rfl
@[simp] theorem setReg_draws (k : RegIdx) (b : Byte) : (s.setReg k b).draws = s.draws := rfl
@[simp] theorem setReg_schedule (k : RegIdx) (b : Byte) : (s.setReg k b).schedule = s.schedule := rfl
@[simp] theorem setReg_stackEntry (k : RegIdx) (b : Byte) (j : Fin 16) : (s.setReg k b).stackEntry j = s.stackEntry j := rfl

/-! ### `setI` -/

@[simp] theorem setI_mem (w : Word) : (s.setI w).mem = s.mem := rfl
@[simp] theorem setI_v (w : Word) : (s.setI w).v = s.v := rfl
@[simp] theorem setI_i (w : Word) : (s.setI w).i = w := rfl
@[simp] theorem setI_pc (w : Word) : (s.setI w).pc = s.pc := rfl
@[simp] theorem setI_stack (w : Word) : (s.setI w).stack = s.stack := rfl
@[simp] theorem setI_sp (w : Word) : (s.setI w).sp = s.sp := rfl
@[simp] theorem setI_dt (w : Word) : (s.setI w).dt = s.dt := rfl
@[simp] theorem setI_st (w : Word) : (s.setI w).st = s.st := rfl
@[simp] theorem setI_keys (w : Word) : (s.setI w).keys = s.keys := rfl
@[simp] theorem setI_fb (w : Word) : (s.setI w).fb = s.fb := rfl
@[simp] theorem setI_status (w : Word) : (s.setI w).status = s.status := rfl
@[simp] theorem setI_loaded (w : Word) : (s.setI w).loaded = s.loaded := rfl
@[simp] theorem setI_provided (w : Word) : (s.setI w).provided = s.provided := rfl
@[simp] theorem setI_draws (w : Word) : (s.setI w).draws = s.draws := rfl
@[simp] theorem setI_schedule (w : Word) : (s.setI w).schedule = s.schedule := rfl
@[simp] theorem setI_reg (w : Word) (j : RegIdx) : (s.setI w).reg j = s.reg j := rfl
@[simp] theorem setI_stackEntry (w : Word) (j : Fin 16) : (s.setI w).stackEntry j = s.stackEntry j := rfl

/-! ### `setPc` -/

@[simp] theorem setPc_mem (w : Word) : (s.setPc w).mem = s.mem := rfl
@[simp] theorem setPc_v (w : Word) : (s.setPc w).v = s.v := rfl
@[simp] theorem setPc_i (w : Word) : (s.setPc w).i = s.i := rfl
@[simp] theorem setPc_pc (w : Word) : (s.setPc w).pc = w := rfl
@[simp] theorem setPc_stack (w : Word) : (s.setPc w).stack = s.stack := rfl
@[simp] theorem setPc_sp (w : Word) : (s.setPc w).sp = s.sp := rfl
@[simp] theorem setPc_dt (w : Word) : (s.setPc w).dt = s.dt := rfl
@[simp] theorem setPc_st (w : Word) : (s.setPc w).st = s.st := rfl
@[simp] theorem setPc_keys (w : Word) : (s.setPc w).keys = s.keys := rfl
@[simp] theorem setPc_fb (w : Word) : (s.setPc w).fb = s.fb := rfl
@[simp] theorem setPc_status (w : Word) : (s.setPc w).status = s.status := rfl
@[simp] theorem setPc_loaded (w : Word) : (s.setPc w).loaded = s.loaded := rfl
@[simp] theorem setPc_provided (w : Word) : (s.setPc w).provided = s.provided := rfl
@[simp] theorem setPc_draws (w : Word) : (s.setPc w).draws = s.draws := rfl
@[simp] theorem setPc_schedule (w : Word) : (s.setPc w).schedule = s.schedule := rfl
@[simp] theorem setPc_reg (w : Word) (j : RegIdx) : (s.setPc w).reg j = s.reg j := rfl
@[simp] theorem setPc_stackEntry (w : Word) (j : Fin 16) : (s.setPc w).stackEntry j = s.stackEntry j := rfl

/-! ### `setDt` -/

@[simp] theorem setDt_mem (b : Byte) : (s.setDt b).mem = s.mem := rfl
@[simp] theorem setDt_v (b : Byte) : (s.setDt b).v = s.v := rfl
@[simp] theorem setDt_i (b : Byte) : (s.setDt b).i = s.i := rfl
@[simp] theorem setDt_pc (b : Byte) : (s.setDt b).pc = s.pc := rfl
@[simp] theorem setDt_stack (b : Byte) : (s.setDt b).stack = s.stack := rfl
@[simp] theorem setDt_sp (b : Byte) : (s.setDt b).sp = s.sp := rfl
@[simp] theorem setDt_dt (b : Byte) : (s.setDt b).dt = b := rfl
@[simp] theorem setDt_st (b : Byte) : (s.setDt b).st = s.st := rfl
@[simp] theorem setDt_keys (b : Byte) : (s.setDt b).keys = s.keys := rfl
@[simp] theorem setDt_fb (b : Byte) : (s.setDt b).fb = s.fb := rfl
@[simp] theorem setDt_status (b : Byte) : (s.setDt b).status = s.status := rfl
@[simp] theorem setDt_loaded (b : Byte) : (s.setDt b).loaded = s.loaded := rfl
@[simp] theorem setDt_provided (b : Byte) : (s.setDt b).provided = s.provided := rfl
@[simp] theorem setDt_draws (b : Byte) : (s.setDt b).draws = s.draws := rfl
@[simp] theorem setDt_schedule (b : Byte) : (s.setDt b).schedule = s.schedule := rfl
@[simp] theorem setDt_reg (b : Byte) (j : RegIdx) : (s.setDt b).reg j = s.reg j := rfl
@[simp] theorem setDt_stackEntry (b : Byte) (j : Fin 16) : (s.setDt b).stackEntry j = s.stackEntry j := rfl

/-! ### `setSt` -/

@[simp] theorem setSt_mem (b : Byte) : (s.setSt b).mem = s.mem := rfl
@[simp] theorem setSt_v (b : Byte) : (s.setSt b).v = s.v := rfl
@[simp] theorem setSt_i (b : Byte) : (s.setSt b).i = s.i := rfl
@[simp] theorem setSt_pc (b : Byte) : (s.setSt b).pc = s.pc := rfl
@[simp] theorem setSt_stack (b : Byte) : (s.setSt b).stack = s.stack := rfl
@[simp] theorem setSt_sp (b : Byte) : (s.setSt b).sp = s.sp := rfl
@[simp] theorem setSt_dt (b : Byte) : (s.setSt b).dt = s.dt := rfl
@[simp] theorem setSt_st (b : Byte) : (s.setSt b).st = b := rfl
@[simp] theorem setSt_keys (b : Byte) : (s.setSt b).keys = s.keys := rfl
@[simp] theorem setSt_fb (b : Byte) : (s.setSt b).fb = s.fb := rfl
@[simp] theorem setSt_status (b : Byte) : (s.setSt b).status = s.status := rfl
@[simp] theorem setSt_loaded (b : Byte) : (s.setSt b).loaded = s.loaded := rfl
@[simp] theorem setSt_provided (b : Byte) : (s.setSt b).provided = s.provided := rfl
@[simp] theorem setSt_draws (b : Byte) : (s.setSt b).draws = s.draws := rfl
@[simp] theorem setSt_schedule (b : Byte) : (s.setSt b).schedule = s.schedule := rfl
@[simp] theorem setSt_reg (b : Byte) (j : RegIdx) : (s.setSt b).reg j = s.reg j := rfl
@[simp] theorem setSt_stackEntry (b : Byte) (j : Fin 16) : (s.setSt b).stackEntry j = s.stackEntry j := rfl

/-! ### `setMem` -/

@[simp] theorem setMem_mem (m : Memory) : (s.setMem m).mem = m := rfl
@[simp] theorem setMem_v (m : Memory) : (s.setMem m).v = s.v := rfl
@[simp] theorem setMem_i (m : Memory) : (s.setMem m).i = s.i := rfl
@[simp] theorem setMem_pc (m : Memory) : (s.setMem m).pc = s.pc := rfl
@[simp] theorem setMem_stack (m : Memory) : (s.setMem m).stack = s.stack := rfl
@[simp] theorem setMem_sp (m : Memory) : (s.setMem m).sp = s.sp := rfl
@[simp] theorem setMem_dt (m : Memory) : (s.setMem m).dt = s.dt := rfl
@[simp] theorem setMem_st (m : Memory) : (s.setMem m).st = s.st := rfl
@[simp] theorem setMem_keys (m : Memory) : (s.setMem m).keys = s.keys := rfl
@[simp] theorem setMem_fb (m : Memory) : (s.setMem m).fb = s.fb := rfl
@[simp] theorem setMem_status (m : Memory) : (s.setMem m).status = s.status := rfl
@[simp] theorem setMem_loaded (m : Memory) : (s.setMem m).loaded = s.loaded := rfl
@[simp] theorem setMem_provided (m : Memory) : (s.setMem m).provided = s.provided := rfl
@[simp] theorem setMem_draws (m : Memory) : (s.setMem m).draws = s.draws := rfl
@[simp] theorem setMem_schedule (m : Memory) : (s.setMem m).schedule = s.schedule := rfl
@[simp] theorem setMem_reg (m : Memory) (j : RegIdx) : (s.setMem m).reg j = s.reg j := rfl
@[simp] theorem setMem_stackEntry (m : Memory) (j : Fin 16) : (s.setMem m).stackEntry j = s.stackEntry j := rfl

/-! ### `setFb` -/

@[simp] theorem setFb_mem (f : Framebuffer) : (s.setFb f).mem = s.mem := rfl
@[simp] theorem setFb_v (f : Framebuffer) : (s.setFb f).v = s.v := rfl
@[simp] theorem setFb_i (f : Framebuffer) : (s.setFb f).i = s.i := rfl
@[simp] theorem setFb_pc (f : Framebuffer) : (s.setFb f).pc = s.pc := rfl
@[simp] theorem setFb_stack (f : Framebuffer) : (s.setFb f).stack = s.stack := rfl
@[simp] theorem setFb_sp (f : Framebuffer) : (s.setFb f).sp = s.sp := rfl
@[simp] theorem setFb_dt (f : Framebuffer) : (s.setFb f).dt = s.dt := rfl
@[simp] theorem setFb_st (f : Framebuffer) : (s.setFb f).st = s.st := rfl
@[simp] theorem setFb_keys (f : Framebuffer) : (s.setFb f).keys = s.keys := rfl
@[simp] theorem setFb_fb (f : Framebuffer) : (s.setFb f).fb = f := rfl
@[simp] theorem setFb_status (f : Framebuffer) : (s.setFb f).status = s.status := rfl
@[simp] theorem setFb_loaded (f : Framebuffer) : (s.setFb f).loaded = s.loaded := rfl
@[simp] theorem setFb_provided (f : Framebuffer) : (s.setFb f).provided = s.provided := rfl
@[simp] theorem setFb_draws (f : Framebuffer) : (s.setFb f).draws = s.draws := rfl
@[simp] theorem setFb_schedule (f : Framebuffer) : (s.setFb f).schedule = s.schedule := rfl
@[simp] theorem setFb_reg (f : Framebuffer) (j : RegIdx) : (s.setFb f).reg j = s.reg j := rfl
@[simp] theorem setFb_stackEntry (f : Framebuffer) (j : Fin 16) : (s.setFb f).stackEntry j = s.stackEntry j := rfl

/-! ### `setKeys` -/

@[simp] theorem setKeys_mem (k : BitVec 16) : (s.setKeys k).mem = s.mem := rfl
@[simp] theorem setKeys_v (k : BitVec 16) : (s.setKeys k).v = s.v := rfl
@[simp] theorem setKeys_i (k : BitVec 16) : (s.setKeys k).i = s.i := rfl
@[simp] theorem setKeys_pc (k : BitVec 16) : (s.setKeys k).pc = s.pc := rfl
@[simp] theorem setKeys_stack (k : BitVec 16) : (s.setKeys k).stack = s.stack := rfl
@[simp] theorem setKeys_sp (k : BitVec 16) : (s.setKeys k).sp = s.sp := rfl
@[simp] theorem setKeys_dt (k : BitVec 16) : (s.setKeys k).dt = s.dt := rfl
@[simp] theorem setKeys_st (k : BitVec 16) : (s.setKeys k).st = s.st := rfl
@[simp] theorem setKeys_keys (k : BitVec 16) : (s.setKeys k).keys = k := rfl
@[simp] theorem setKeys_fb (k : BitVec 16) : (s.setKeys k).fb = s.fb := rfl
@[simp] theorem setKeys_status (k : BitVec 16) : (s.setKeys k).status = s.status := rfl
@[simp] theorem setKeys_loaded (k : BitVec 16) : (s.setKeys k).loaded = s.loaded := rfl
@[simp] theorem setKeys_provided (k : BitVec 16) : (s.setKeys k).provided = s.provided := rfl
@[simp] theorem setKeys_draws (k : BitVec 16) : (s.setKeys k).draws = s.draws := rfl
@[simp] theorem setKeys_schedule (k : BitVec 16) : (s.setKeys k).schedule = s.schedule := rfl
@[simp] theorem setKeys_reg (k : BitVec 16) (j : RegIdx) : (s.setKeys k).reg j = s.reg j := rfl
@[simp] theorem setKeys_stackEntry (k : BitVec 16) (j : Fin 16) : (s.setKeys k).stackEntry j = s.stackEntry j := rfl

/-! ### `setStatus` -/

@[simp] theorem setStatus_mem (x : Status) : (s.setStatus x).mem = s.mem := rfl
@[simp] theorem setStatus_v (x : Status) : (s.setStatus x).v = s.v := rfl
@[simp] theorem setStatus_i (x : Status) : (s.setStatus x).i = s.i := rfl
@[simp] theorem setStatus_pc (x : Status) : (s.setStatus x).pc = s.pc := rfl
@[simp] theorem setStatus_stack (x : Status) : (s.setStatus x).stack = s.stack := rfl
@[simp] theorem setStatus_sp (x : Status) : (s.setStatus x).sp = s.sp := rfl
@[simp] theorem setStatus_dt (x : Status) : (s.setStatus x).dt = s.dt := rfl
@[simp] theorem setStatus_st (x : Status) : (s.setStatus x).st = s.st := rfl
@[simp] theorem setStatus_keys (x : Status) : (s.setStatus x).keys = s.keys := rfl
@[simp] theorem setStatus_fb (x : Status) : (s.setStatus x).fb = s.fb := rfl
@[simp] theorem setStatus_status (x : Status) : (s.setStatus x).status = x := rfl
@[simp] theorem setStatus_loaded (x : Status) : (s.setStatus x).loaded = s.loaded := rfl
@[simp] theorem setStatus_provided (x : Status) : (s.setStatus x).provided = s.provided := rfl
@[simp] theorem setStatus_draws (x : Status) : (s.setStatus x).draws = s.draws := rfl
@[simp] theorem setStatus_schedule (x : Status) : (s.setStatus x).schedule = s.schedule := rfl
@[simp] theorem setStatus_reg (x : Status) (j : RegIdx) : (s.setStatus x).reg j = s.reg j := rfl
@[simp] theorem setStatus_stackEntry (x : Status) (j : Fin 16) : (s.setStatus x).stackEntry j = s.stackEntry j := rfl

/-! ### `setStack` -/

@[simp] theorem setStack_mem (k : Fin 16) (w : Word) (p : Fin 17) : (s.setStack k w p).mem = s.mem := rfl
@[simp] theorem setStack_v (k : Fin 16) (w : Word) (p : Fin 17) : (s.setStack k w p).v = s.v := rfl
@[simp] theorem setStack_i (k : Fin 16) (w : Word) (p : Fin 17) : (s.setStack k w p).i = s.i := rfl
@[simp] theorem setStack_pc (k : Fin 16) (w : Word) (p : Fin 17) : (s.setStack k w p).pc = s.pc := rfl
@[simp] theorem setStack_stack (k : Fin 16) (w : Word) (p : Fin 17) : (s.setStack k w p).stack = s.stack.set k.val w := rfl
@[simp] theorem setStack_sp (k : Fin 16) (w : Word) (p : Fin 17) : (s.setStack k w p).sp = p := rfl
@[simp] theorem setStack_dt (k : Fin 16) (w : Word) (p : Fin 17) : (s.setStack k w p).dt = s.dt := rfl
@[simp] theorem setStack_st (k : Fin 16) (w : Word) (p : Fin 17) : (s.setStack k w p).st = s.st := rfl
@[simp] theorem setStack_keys (k : Fin 16) (w : Word) (p : Fin 17) : (s.setStack k w p).keys = s.keys := rfl
@[simp] theorem setStack_fb (k : Fin 16) (w : Word) (p : Fin 17) : (s.setStack k w p).fb = s.fb := rfl
@[simp] theorem setStack_status (k : Fin 16) (w : Word) (p : Fin 17) : (s.setStack k w p).status = s.status := rfl
@[simp] theorem setStack_loaded (k : Fin 16) (w : Word) (p : Fin 17) : (s.setStack k w p).loaded = s.loaded := rfl
@[simp] theorem setStack_provided (k : Fin 16) (w : Word) (p : Fin 17) : (s.setStack k w p).provided = s.provided := rfl
@[simp] theorem setStack_draws (k : Fin 16) (w : Word) (p : Fin 17) : (s.setStack k w p).draws = s.draws := rfl
@[simp] theorem setStack_schedule (k : Fin 16) (w : Word) (p : Fin 17) : (s.setStack k w p).schedule = s.schedule := rfl
@[simp] theorem setStack_reg (k : Fin 16) (w : Word) (p : Fin 17) (j : RegIdx) : (s.setStack k w p).reg j = s.reg j := rfl

/-! ### `setSp` -/

@[simp] theorem setSp_mem (p : Fin 17) : (s.setSp p).mem = s.mem := rfl
@[simp] theorem setSp_v (p : Fin 17) : (s.setSp p).v = s.v := rfl
@[simp] theorem setSp_i (p : Fin 17) : (s.setSp p).i = s.i := rfl
@[simp] theorem setSp_pc (p : Fin 17) : (s.setSp p).pc = s.pc := rfl
@[simp] theorem setSp_stack (p : Fin 17) : (s.setSp p).stack = s.stack := rfl
@[simp] theorem setSp_sp (p : Fin 17) : (s.setSp p).sp = p := rfl
@[simp] theorem setSp_dt (p : Fin 17) : (s.setSp p).dt = s.dt := rfl
@[simp] theorem setSp_st (p : Fin 17) : (s.setSp p).st = s.st := rfl
@[simp] theorem setSp_keys (p : Fin 17) : (s.setSp p).keys = s.keys := rfl
@[simp] theorem setSp_fb (p : Fin 17) : (s.setSp p).fb = s.fb := rfl
@[simp] theorem setSp_status (p : Fin 17) : (s.setSp p).status = s.status := rfl
@[simp] theorem setSp_loaded (p : Fin 17) : (s.setSp p).loaded = s.loaded := rfl
@[simp] theorem setSp_provided (p : Fin 17) : (s.setSp p).provided = s.provided := rfl
@[simp] theorem setSp_draws (p : Fin 17) : (s.setSp p).draws = s.draws := rfl
@[simp] theorem setSp_schedule (p : Fin 17) : (s.setSp p).schedule = s.schedule := rfl
@[simp] theorem setSp_reg (p : Fin 17) (j : RegIdx) : (s.setSp p).reg j = s.reg j := rfl
@[simp] theorem setSp_stackEntry (p : Fin 17) (j : Fin 16) : (s.setSp p).stackEntry j = s.stackEntry j := rfl

/-! ### `afterDraw` -/

@[simp] theorem afterDraw_mem : (s.afterDraw).mem = s.mem := rfl
@[simp] theorem afterDraw_v : (s.afterDraw).v = s.v := rfl
@[simp] theorem afterDraw_i : (s.afterDraw).i = s.i := rfl
@[simp] theorem afterDraw_pc : (s.afterDraw).pc = s.pc := rfl
@[simp] theorem afterDraw_stack : (s.afterDraw).stack = s.stack := rfl
@[simp] theorem afterDraw_sp : (s.afterDraw).sp = s.sp := rfl
@[simp] theorem afterDraw_dt : (s.afterDraw).dt = s.dt := rfl
@[simp] theorem afterDraw_st : (s.afterDraw).st = s.st := rfl
@[simp] theorem afterDraw_keys : (s.afterDraw).keys = s.keys := rfl
@[simp] theorem afterDraw_fb : (s.afterDraw).fb = s.fb := rfl
@[simp] theorem afterDraw_status : (s.afterDraw).status = s.status := rfl
@[simp] theorem afterDraw_loaded : (s.afterDraw).loaded = s.loaded := rfl
@[simp] theorem afterDraw_provided : (s.afterDraw).provided = s.provided.tail := rfl
@[simp] theorem afterDraw_draws : (s.afterDraw).draws = s.draws + 1 := rfl
@[simp] theorem afterDraw_schedule : (s.afterDraw).schedule = s.schedule := rfl
@[simp] theorem afterDraw_reg (j : RegIdx) : (s.afterDraw).reg j = s.reg j := rfl
@[simp] theorem afterDraw_stackEntry (j : Fin 16) : (s.afterDraw).stackEntry j = s.stackEntry j := rfl

/-! ### Registers and stack entries read after they are written -/

/-- A register written and read. -/
@[simp] theorem setReg_reg_same (k : RegIdx) (b : Byte) : (s.setReg k b).reg k = b := by
  simp [setReg, reg]

/-- Another register read after a write. -/
theorem setReg_reg_other {k j : RegIdx} (h : j ≠ k) (b : Byte) : (s.setReg k b).reg j = s.reg j := by
  have hv : k.val ≠ j.val := fun e => h (Fin.ext e.symm)
  simp [setReg, reg, Vector.getElem_set_ne _ _ hv]

/-- Any register read after a write: the written value at its own index, the old one elsewhere. -/
theorem setReg_reg (k j : RegIdx) (b : Byte) : (s.setReg k b).reg j = if j = k then b else s.reg j := by
  by_cases h : j = k
  · subst h; simp
  · simp [h, setReg_reg_other s h b]

/-- Any stack entry read after a push's write. -/
theorem setStack_stackEntry (k j : Fin 16) (w : Word) (p : Fin 17) :
    (s.setStack k w p).stackEntry j = if j = k then w else s.stackEntry j := by
  by_cases h : j = k
  · subst h; simp [setStack, stackEntry]
  · have hv : k.val ≠ j.val := fun e => h (Fin.ext e.symm)
    simp [h, setStack, stackEntry, Vector.getElem_set_ne _ _ hv]

end Sys2Proof.Machine.State
end

