-- ==== Sys2Proof/Laws/Ops.lean ====
section
/-! SUPPORT. For each shared operation, one lemma that says once everything it can do. -/

namespace Sys2Proof.Machine

/-! ### Outcomes and Halt entry -/

/-- The end of an instruction is a next state that differs in PC alone (R120). -/
@[simp] theorem finish_eq (f : Flow) (s : State) : finish f s = .next (s.setPc (f.target s.pc)) := rfl

/-- Halt entry is a next state that differs in Status alone (R272). -/
@[simp] theorem raiseHalt_eq (c : Cause) (s : State) : raiseHalt c s = .next (s.setStatus (.halted c)) := rfl

@[simp] theorem guarded_ok {α : Type} (s : State) (a : α) (k : α → Out) : guarded s (.ok a) k = k a := rfl

@[simp] theorem guarded_error {α : Type} (s : State) (c : Cause) (k : α → Out) :
    guarded s (.error c) k = raiseHalt c s := rfl

/-- A guarded operation either halts the state it began in or goes on with its value. -/
theorem guarded_cases {α : Type} {s t : State} {r : Except Cause α} {k : α → Out} (h : guarded s r k = .next t) :
    (∃ c, r = .error c ∧ t = s.setStatus (.halted c)) ∨ (∃ a, r = .ok a ∧ k a = .next t) := by
  cases r with
  | error c =>
    refine .inl ⟨c, rfl, ?_⟩
    simpa using h.symm
  | ok a => exact .inr ⟨a, rfl, h⟩

@[simp] theorem target_next (p : Word) : Flow.next.target p = p + 2 := rfl
@[simp] theorem target_skip (p : Word) : Flow.skip.target p = p + 4 := rfl
@[simp] theorem target_stay (p : Word) : Flow.stay.target p = p := rfl
@[simp] theorem target_jump (p t : Word) : (Flow.jump t).target p = t := rfl

/-! ### Flags -/

@[simp] theorem flagByte_true : flagByte true = 1 := rfl
@[simp] theorem flagByte_false : flagByte false = 0 := rfl

/-- A flag is 1 exactly when it holds (R22). -/
theorem flagByte_eq_one (b : Bool) : flagByte b = 1 ↔ b = true := by cases b <;> decide

/-- A flag is 0 or 1 (R22). -/
theorem flagByte_or (b : Bool) : flagByte b = 0 ∨ flagByte b = 1 := by cases b <;> decide

/-! ### Memory accesses -/

theorem memRead_ok {s : State} {a : Nat} (h : a < Config.memSize) : s.memRead a = .ok (s.mem.read a) := by
  simp [State.memRead, Nat.not_le.2 h]

theorem memRead_error {s : State} {a : Nat} (h : Config.memSize ≤ a) : s.memRead a = .error .outOfBounds := by
  simp [State.memRead, h]

theorem memWrite_ok {s : State} {a : Nat} (h : a < Config.memSize) (b : Byte) :
    s.memWrite a b = .ok (s.setMem (s.mem.write a b)) := by
  simp [State.memWrite, Nat.not_le.2 h]

theorem memWrite_error {s : State} {a : Nat} (h : Config.memSize ≤ a) (b : Byte) :
    s.memWrite a b = .error .outOfBounds := by
  simp [State.memWrite, h]

/-- A block that lies in the memory is read whole. -/
theorem readBlock_ok {s : State} {a n : Nat} (h : n = 0 ∨ a + n ≤ Config.memSize) :
    s.readBlock a n = .ok ((List.range' a n).map s.mem.read) := by
  induction n generalizing a with
  | zero => rfl
  | succ n ih =>
    have ha : a < Config.memSize := by omega
    simp [State.readBlock, memRead_ok ha, ih (a := a + 1) (by omega), List.range'_succ]

/-- A block that leaves the memory is not read at all (R68). -/
theorem readBlock_error {s : State} {a n : Nat} (h0 : n ≠ 0) (h : Config.memSize < a + n) :
    s.readBlock a n = .error .outOfBounds := by
  induction n generalizing a with
  | zero => exact absurd rfl h0
  | succ n ih =>
    by_cases ha : a < Config.memSize
    · simp [State.readBlock, memRead_ok ha, ih (a := a + 1) (by omega) (by omega)]
    · simp [State.readBlock, memRead_error (Nat.not_lt.1 ha)]

/-- A block that lies in the memory is stored whole. -/
theorem writeBlock_ok {s : State} {a : Nat} {bs : List Byte} (h : bs.length = 0 ∨ a + bs.length ≤ Config.memSize) :
    s.writeBlock a bs = .ok (s.setMem (s.mem.writeAll a bs)) := by
  induction bs generalizing s a with
  | nil => rfl
  | cons b bs ih =>
    simp only [List.length_cons] at h
    have ha : a < Config.memSize := by omega
    simp [State.writeBlock, memWrite_ok ha, ih (a := a + 1) (by omega), Memory.writeAll, State.setMem]

/-- A block that leaves the memory is not stored at all (R68). -/
theorem writeBlock_error {s : State} {a : Nat} {bs : List Byte} (h0 : bs.length ≠ 0)
    (h : Config.memSize < a + bs.length) : s.writeBlock a bs = .error .outOfBounds := by
  induction bs generalizing s a with
  | nil => exact absurd rfl h0
  | cons b bs ih =>
    simp only [List.length_cons] at h
    by_cases ha : a < Config.memSize
    · simp [State.writeBlock, memWrite_ok ha, ih (a := a + 1) (by omega) (by omega)]
    · simp [State.writeBlock, memWrite_error (Nat.not_lt.1 ha)]

/-- A block read answers bytes only when it lies in the memory, and then those bytes. -/
theorem readBlock_cases (s : State) (a n : Nat) :
    ((n = 0 ∨ a + n ≤ Config.memSize) ∧ s.readBlock a n = .ok ((List.range' a n).map s.mem.read)) ∨
      (n ≠ 0 ∧ Config.memSize < a + n ∧ s.readBlock a n = .error .outOfBounds) := by
  by_cases h : n = 0 ∨ a + n ≤ Config.memSize
  · exact .inl ⟨h, readBlock_ok h⟩
  · exact .inr ⟨by omega, by omega, readBlock_error (by omega) (by omega)⟩

/-- A block store changes memory only, and only when the block lies in it. -/
theorem writeBlock_cases (s : State) (a : Nat) (bs : List Byte) :
    ((bs.length = 0 ∨ a + bs.length ≤ Config.memSize) ∧ s.writeBlock a bs = .ok (s.setMem (s.mem.writeAll a bs))) ∨
      (bs.length ≠ 0 ∧ Config.memSize < a + bs.length ∧ s.writeBlock a bs = .error .outOfBounds) := by
  by_cases h : bs.length = 0 ∨ a + bs.length ≤ Config.memSize
  · exact .inl ⟨h, writeBlock_ok h⟩
  · exact .inr ⟨by omega, by omega, writeBlock_error (by omega) (by omega)⟩

/-- A fetch inside the memory (R63). -/
theorem fetch_ok {s : State} (h : s.pc.toNat + 1 < Config.memSize) :
    s.fetch = .ok (wordOfBytes (s.mem.read s.pc.toNat) (s.mem.read (s.pc.toNat + 1))) := by
  simp [State.fetch, Nat.not_le.2 h]

/-- A fetch beyond PC = 0xFFE (R63). -/
theorem fetch_error {s : State} (h : Config.memSize ≤ s.pc.toNat + 1) : s.fetch = .error .outOfBounds := by
  simp [State.fetch, h]

/-- A fetch succeeds only for PC ≤ 0xFFE (R25, R63). -/
theorem pc_of_fetch_ok {s : State} {w : Word} (h : s.fetch = .ok w) : s.pc.toNat ≤ 0xFFE := by
  unfold State.fetch at h
  split at h
  · cases h
  · rename_i hp; simp [Config.memSize] at hp; omega

/-! ### The call stack -/

/-- A push onto a stack that is not full (R27). -/
theorem push_ok {s : State} (h : s.sp.val < 16) (a : Word) :
    s.push a = .ok (s.setStack ⟨s.sp.val, h⟩ a ⟨s.sp.val + 1, by omega⟩) := by
  simp [State.push, h]

/-- A push onto a full stack (R27). -/
theorem push_error {s : State} (h : s.sp.val = 16) (a : Word) : s.push a = .error .stackOverflow := by
  simp [State.push, h]

/-- A pop from a stack that is not empty (R27, R28). -/
theorem pop_ok {s : State} (h : 0 < s.sp.val) :
    s.pop = .ok (s.stackEntry ⟨s.sp.val - 1, by omega⟩, s.setSp ⟨s.sp.val - 1, by omega⟩) := by
  simp [State.pop, h]

/-- A pop from an empty stack (R27). -/
theorem pop_error {s : State} (h : s.sp.val = 0) : s.pop = .error .stackUnderflow := by
  simp [State.pop, h]

/-! ### Operands -/

/-- How many registers LD [I],Vx stores (R194). -/
@[simp] theorem regsTo_length (s : State) (x : RegIdx) : (s.regsTo x).length = x.val + 1 := by
  have := x.isLt
  simp only [State.regsTo, List.length_take, Vector.length_toList]
  omega

/-- Which registers LD [I],Vx stores: the k-th byte is V[k] (R194). -/
theorem regsTo_getElem (s : State) (x : RegIdx) {k : Nat} (h : k < (s.regsTo x).length) :
    (s.regsTo x)[k] = s.reg ⟨k, by have := x.isLt; have := regsTo_length s x; omega⟩ := by
  simp [State.regsTo, State.reg]

@[simp] theorem bcdDigits_length (a : Byte) : (bcdDigits a).length = 3 := rfl

/-- A register after a block load: the block's byte where the block reaches, the old value elsewhere (R195). -/
theorem setRegsFrom_reg (s : State) (k : Nat) (bs : List Byte) (j : RegIdx) :
    (s.setRegsFrom k bs).reg j = if h : k ≤ j.val ∧ j.val - k < bs.length then bs[j.val - k] else s.reg j := by
  induction bs generalizing s k with
  | nil => simp [State.setRegsFrom]
  | cons b bs ih =>
    have hj := j.isLt
    rw [State.setRegsFrom]
    by_cases hk : k < 16
    · rw [dif_pos hk, ih]
      by_cases he : j.val = k
      · subst he
        simp
      · have hne : j ≠ ⟨k, hk⟩ := fun e => he (congrArg Fin.val e)
        by_cases hin : k + 1 ≤ j.val ∧ j.val - (k + 1) < bs.length
        · rw [dif_pos hin, dif_pos ⟨by omega, by simp only [List.length_cons]; omega⟩]
          simp [show j.val - k = j.val - (k + 1) + 1 by omega]
        · rw [dif_neg hin, dif_neg (by simp only [List.length_cons]; omega), State.setReg_reg_other _ hne]
    · rw [dif_neg hk, dif_neg (by omega)]

/-- A block load changes registers only (R195). -/
theorem setRegsFrom_frame (s : State) (k : Nat) (bs : List Byte) :
    ∃ v, s.setRegsFrom k bs = { s with v := v } := by
  induction bs generalizing s k with
  | nil => exact ⟨s.v, rfl⟩
  | cons b bs ih =>
    rw [State.setRegsFrom]
    split
    · obtain ⟨v, hv⟩ := ih (s.setReg _ b) (k + 1)
      exact ⟨v, by rw [hv]; rfl⟩
    · exact ⟨s.v, rfl⟩

/-- A key index is the register's value, and an error above 15 (R246). -/
theorem keyIndex_ok {a : Byte} (h : a.toNat ≤ 15) : keyIndex a = .ok a.toNat := by
  simp [keyIndex]; omega

theorem keyIndex_error {a : Byte} (h : 15 < a.toNat) : keyIndex a = .error .badKeyIndex := by
  simp [keyIndex, h]

/-- No key is down exactly when the mask is 0 (R243). -/
theorem firstDown_none_iff (s : State) : s.firstDown = none ↔ s.keys = 0 := by
  simp only [State.firstDown, State.keyDown, List.find?_eq_none, List.mem_range]
  constructor
  · intro h
    refine BitVec.eq_of_getLsbD_eq fun k hk => ?_
    simpa using h k hk
  · intro h k hk
    simp [h]

/-- The key reported is down, is one of the sixteen, and no lower one is down (R243, D20). -/
theorem firstDown_some {s : State} {k : Nat} (h : s.firstDown = some k) :
    k < 16 ∧ s.keyDown k = true ∧ ∀ j, j < k → s.keyDown j = false := by
  have hm := List.mem_of_find?_eq_some h
  have hp := List.find?_some h
  rw [List.mem_range] at hm
  refine ⟨hm, hp, fun j hj => ?_⟩
  obtain ⟨-, as, bs, he, hn⟩ := List.find?_eq_some_iff_append.1 h
  have hlen : as.length = k := by
    have := congrArg (fun l => l[as.length]?) he
    have hl : as.length < 16 := by
      have := congrArg List.length he
      simp at this; omega
    simp [hl] at this
    exact this
  have hjm : j ∈ as := by
    have h1 : as = (List.range 16).take k := by rw [he, ← hlen]; simp
    rw [h1]
    simp [List.take_range]
    omega
  simpa using hn j hjm

end Sys2Proof.Machine
end

