-- ==== Sys2Proof/Laws/Exec.lean ====
section
/-! SUPPORT. What each instruction answers, one equation per instruction and per case of its check, in the named updates of
Ops.lean: a proof about an instruction rewrites with these and never unfolds a meaning. -/

namespace Sys2Proof.Machine

variable (s : State) (x y : RegIdx) (kk : Byte) (nnn : Addr12)

/-! ### Instructions without a check -/

theorem exec_cls : exec .cls s = .next ((s.setFb Framebuffer.blank).setPc (s.pc + 2)) := rfl
theorem exec_jp : exec (.jp nnn) s = .next (s.setPc (zext16 nnn)) := rfl
theorem exec_jpV0 : exec (.jpV0 nnn) s = .next (s.setPc (offsetTarget nnn (s.reg 0))) := rfl
theorem exec_ldImm : exec (.ldImm x kk) s = .next ((s.setReg x kk).setPc (s.pc + 2)) := rfl
theorem exec_addImm : exec (.addImm x kk) s = .next ((s.setReg x (s.reg x + kk)).setPc (s.pc + 2)) := rfl
theorem exec_ldReg : exec (.ldReg x y) s = .next ((s.setReg x (s.reg y)).setPc (s.pc + 2)) := rfl
theorem exec_orReg : exec (.orReg x y) s = .next ((s.setReg x (s.reg x ||| s.reg y)).setPc (s.pc + 2)) := rfl
theorem exec_andReg : exec (.andReg x y) s = .next ((s.setReg x (s.reg x &&& s.reg y)).setPc (s.pc + 2)) := rfl
theorem exec_xorReg : exec (.xorReg x y) s = .next ((s.setReg x (s.reg x ^^^ s.reg y)).setPc (s.pc + 2)) := rfl

theorem exec_addReg : exec (.addReg x y) s =
    .next (((s.setReg vf (carryFlag (s.reg x) (s.reg y))).setReg x (s.reg x + s.reg y)).setPc (s.pc + 2)) := rfl

theorem exec_subReg : exec (.subReg x y) s =
    .next (((s.setReg vf (noBorrowFlag (s.reg x) (s.reg y))).setReg x (s.reg x - s.reg y)).setPc (s.pc + 2)) := rfl

theorem exec_shr : exec (.shr x y) s =
    .next (((s.setReg vf (lowBitFlag (s.reg x))).setReg x (s.reg x >>> 1)).setPc (s.pc + 2)) := rfl

theorem exec_subnReg : exec (.subnReg x y) s =
    .next (((s.setReg x (s.reg y - s.reg x)).setReg vf (noBorrowFlag (s.reg y) (s.reg x))).setPc (s.pc + 2)) := rfl

theorem exec_shl : exec (.shl x y) s =
    .next (((s.setReg vf (highBitFlag (s.reg x))).setReg x (s.reg x <<< 1)).setPc (s.pc + 2)) := rfl

theorem exec_ldI : exec (.ldI nnn) s = .next ((s.setI (zext16 nnn)).setPc (s.pc + 2)) := rfl
theorem exec_addI : exec (.addI x) s = .next ((s.setI (indexSum s.i (s.reg x))).setPc (s.pc + 2)) := rfl
theorem exec_ldF : exec (.ldF x) s = .next ((s.setI (glyphAddress (s.reg x))).setPc (s.pc + 2)) := rfl

theorem exec_rnd : exec (.rnd x kk) s =
    .next ((s.afterDraw.setReg x (s.nextRandom &&& kk)).setPc (s.pc + 2)) := rfl

theorem exec_ldVxDt : exec (.ldVxDt x) s = .next ((s.setReg x s.dt).setPc (s.pc + 2)) := rfl
theorem exec_ldDtVx : exec (.ldDtVx x) s = .next ((s.setDt (s.reg x)).setPc (s.pc + 2)) := rfl
theorem exec_ldStVx : exec (.ldStVx x) s = .next ((s.setSt (s.reg x)).setPc (s.pc + 2)) := rfl

/-! ### Skips -/

/-- A skip sets PC alone, by its condition (R120). -/
theorem skipIf_eq (c : Bool) : skipIf c s = .next (s.setPc (if c then s.pc + 4 else s.pc + 2)) := by
  cases c <;> rfl

theorem exec_seImm : exec (.seImm x kk) s = .next (s.setPc (if s.reg x = kk then s.pc + 4 else s.pc + 2)) := by
  simp [exec, execSeImm, skipIf_eq]

theorem exec_sneImm : exec (.sneImm x kk) s = .next (s.setPc (if s.reg x = kk then s.pc + 2 else s.pc + 4)) := by
  by_cases h : s.reg x = kk <;> simp [exec, execSneImm, skipIf_eq, h]

theorem exec_seReg : exec (.seReg x y) s = .next (s.setPc (if s.reg x = s.reg y then s.pc + 4 else s.pc + 2)) := by
  simp [exec, execSeReg, skipIf_eq]

theorem exec_sneReg : exec (.sneReg x y) s = .next (s.setPc (if s.reg x = s.reg y then s.pc + 2 else s.pc + 4)) := by
  by_cases h : s.reg x = s.reg y <;> simp [exec, execSneReg, skipIf_eq, h]

variable {s x y kk nnn}

theorem exec_skp (h : (s.reg x).toNat ≤ 15) : exec (.skp x) s =
    .next (s.setPc (if s.keys.getLsbD (s.reg x).toNat then s.pc + 4 else s.pc + 2)) := by
  simp [exec, execSkp, keyIndex_ok h, skipIf_eq, State.keyDown]

theorem exec_skp_halts (h : 15 < (s.reg x).toNat) : exec (.skp x) s = .next (s.setStatus (.halted .badKeyIndex)) := by
  simp [exec, execSkp, keyIndex_error h]

theorem exec_sknp (h : (s.reg x).toNat ≤ 15) : exec (.sknp x) s =
    .next (s.setPc (if s.keys.getLsbD (s.reg x).toNat then s.pc + 2 else s.pc + 4)) := by
  cases hk : s.keys.getLsbD (s.reg x).toNat <;> simp [exec, execSknp, keyIndex_ok h, skipIf_eq, State.keyDown, hk]

theorem exec_sknp_halts (h : 15 < (s.reg x).toNat) :
    exec (.sknp x) s = .next (s.setStatus (.halted .badKeyIndex)) := by
  simp [exec, execSknp, keyIndex_error h]

/-! ### The stack -/

theorem exec_call (h : s.sp.val < 16) : exec (.call nnn) s =
    .next ((s.setStack ⟨s.sp.val, h⟩ s.pc ⟨s.sp.val + 1, by omega⟩).setPc (zext16 nnn)) := by
  simp [exec, execCall, push_ok h]

theorem exec_call_halts (h : s.sp.val = 16) :
    exec (.call nnn) s = .next (s.setStatus (.halted .stackOverflow)) := by
  simp [exec, execCall, push_error h]

theorem exec_ret (h : 0 < s.sp.val) : exec .ret s =
    .next ((s.setSp ⟨s.sp.val - 1, by omega⟩).setPc (s.stackEntry ⟨s.sp.val - 1, by omega⟩ + 2)) := by
  simp [exec, execRet, pop_ok h]

theorem exec_ret_halts (h : s.sp.val = 0) : exec .ret s = .next (s.setStatus (.halted .stackUnderflow)) := by
  simp [exec, execRet, pop_error h]

/-! ### Memory -/

theorem exec_ldB (h : s.i.toNat + 2 < Config.memSize) : exec (.ldB x) s =
    .next ((s.setMem (s.mem.writeAll s.i.toNat (bcdDigits (s.reg x)))).setPc (s.pc + 2)) := by
  simp [exec, execLdB, writeBlock_ok (s := s) (bs := bcdDigits (s.reg x)) (.inr h)]

theorem exec_ldB_halts (h : Config.memSize ≤ s.i.toNat + 2) :
    exec (.ldB x) s = .next (s.setStatus (.halted .outOfBounds)) := by
  simp [exec, execLdB, writeBlock_error (s := s) (bs := bcdDigits (s.reg x)) (by simp) (Nat.lt_succ_of_le h)]

theorem exec_storeRegs (h : s.i.toNat + x.val < Config.memSize) : exec (.storeRegs x) s =
    .next ((s.setMem (s.mem.writeAll s.i.toNat (s.regsTo x))).setPc (s.pc + 2)) := by
  have hl : s.i.toNat + (s.regsTo x).length ≤ Config.memSize := by rw [regsTo_length]; exact h
  simp [exec, execStoreRegs, writeBlock_ok (s := s) (.inr hl)]

theorem exec_storeRegs_halts (h : Config.memSize ≤ s.i.toNat + x.val) :
    exec (.storeRegs x) s = .next (s.setStatus (.halted .outOfBounds)) := by
  have hl : Config.memSize < s.i.toNat + (s.regsTo x).length := by rw [regsTo_length]; omega
  simp [exec, execStoreRegs, writeBlock_error (s := s) (bs := s.regsTo x) (by simp) hl]

theorem exec_loadRegs (h : s.i.toNat + x.val < Config.memSize) : exec (.loadRegs x) s =
    .next ((s.setRegsFrom 0 ((List.range' s.i.toNat (x.val + 1)).map s.mem.read)).setPc (s.pc + 2)) := by
  obtain ⟨v, hv⟩ := setRegsFrom_frame s 0 ((List.range' s.i.toNat (x.val + 1)).map s.mem.read)
  simp only [exec, execLoadRegs, readBlock_ok (s := s) (n := x.val + 1) (.inr h), guarded_ok, finish_eq, hv,
    target_next]

theorem exec_loadRegs_halts (h : Config.memSize ≤ s.i.toNat + x.val) :
    exec (.loadRegs x) s = .next (s.setStatus (.halted .outOfBounds)) := by
  simp [exec, execLoadRegs, readBlock_error (s := s) (a := s.i.toNat) (Nat.succ_ne_zero x.val) (by omega)]

/-! ### Display and keypad -/

/-- The rows a draw reads, top row first. -/
abbrev spriteRows (s : State) (n : Nat) : List Byte := (List.range' s.i.toNat n).map s.mem.read

/-- The framebuffer and the flag a draw leaves. -/
abbrev drawn (s : State) (x y : RegIdx) (n : Nat) : Framebuffer × Bool :=
  drawRows (originX (s.reg x)) (originY (s.reg y)) (spriteRows s n) (s.fb, false)

theorem exec_drw {n : Nat} (h : n = 0 ∨ s.i.toNat + n ≤ Config.memSize) : exec (.drw x y n) s =
    .next (((s.setFb (drawn s x y n).1).setReg vf (flagByte (drawn s x y n).2)).setPc (s.pc + 2)) := by
  simp [exec, execDrw, readBlock_ok (s := s) h]

theorem exec_drw_halts {n : Nat} (h0 : n ≠ 0) (h : Config.memSize < s.i.toNat + n) :
    exec (.drw x y n) s = .next (s.setStatus (.halted .outOfBounds)) := by
  simp [exec, execDrw, readBlock_error (s := s) h0 h]

theorem exec_ldVxK_waits (h : s.firstDown = none) : exec (.ldVxK x) s = .next s := by
  simp [exec, execLdVxK, h, State.setPc]

theorem exec_ldVxK {k : Nat} (h : s.firstDown = some k) :
    exec (.ldVxK x) s = .next ((s.setReg x (BitVec.ofNat 8 k)).setPc (s.pc + 2)) := by
  simp [exec, execLdVxK, h, writeReg]

/-! ### The inversion of `exec` -/

/-- What an instruction that does not halt leaves, by instruction, in the named updates: the places it writes, with the
values that only its own equation gives left open. -/
def ExecShape (s t : State) : Instr → Prop
  | .cls => t = (s.setFb Framebuffer.blank).setPc (s.pc + 2)
  | .ret => ∃ h : 0 < s.sp.val,
      t = (s.setSp ⟨s.sp.val - 1, by omega⟩).setPc (s.stackEntry ⟨s.sp.val - 1, by omega⟩ + 2)
  | .jp nnn => t = s.setPc (zext16 nnn)
  | .call nnn => ∃ h : s.sp.val < 16,
      t = (s.setStack ⟨s.sp.val, h⟩ s.pc ⟨s.sp.val + 1, by omega⟩).setPc (zext16 nnn)
  | .seImm _ _ | .sneImm _ _ | .seReg _ _ | .sneReg _ _ | .skp _ | .sknp _ =>
      t = s.setPc (s.pc + 2) ∨ t = s.setPc (s.pc + 4)
  | .jpV0 nnn => t = s.setPc (offsetTarget nnn (s.reg 0))
  | .ldVxK x => t = s ∨ ∃ b, t = (s.setReg x b).setPc (s.pc + 2)
  | .ldImm x _ | .addImm x _ | .ldReg x _ | .orReg x _ | .andReg x _ | .xorReg x _ | .ldVxDt x =>
      ∃ b, t = (s.setReg x b).setPc (s.pc + 2)
  | .rnd x _ => ∃ b, t = (s.afterDraw.setReg x b).setPc (s.pc + 2)
  | .addReg x _ | .subReg x _ | .shr x _ | .shl x _ =>
      ∃ f b, (f = 0 ∨ f = 1) ∧ t = ((s.setReg vf f).setReg x b).setPc (s.pc + 2)
  | .subnReg x _ => ∃ f b, (f = 0 ∨ f = 1) ∧ t = ((s.setReg x b).setReg vf f).setPc (s.pc + 2)
  | .ldI _ | .addI _ | .ldF _ => ∃ w, t = (s.setI w).setPc (s.pc + 2)
  | .drw _ _ _ => ∃ f hit, t = ((s.setFb f).setReg vf (flagByte hit)).setPc (s.pc + 2)
  | .ldDtVx x => t = (s.setDt (s.reg x)).setPc (s.pc + 2)
  | .ldStVx x => t = (s.setSt (s.reg x)).setPc (s.pc + 2)
  | .ldB _ | .storeRegs _ => ∃ a bs, t = (s.setMem (s.mem.writeAll a bs)).setPc (s.pc + 2)
  | .loadRegs x => ∃ bs : List Byte, bs.length = x.val + 1 ∧ t = (s.setRegsFrom 0 bs).setPc (s.pc + 2)

/-- Every next state of an instruction is a halt of the state before it or has the instruction's shape. -/
theorem exec_cases {i : Instr} {s t : State} (h : exec i s = .next t) :
    (∃ c, t = s.setStatus (.halted c)) ∨ ExecShape s t i := by
  cases i
  case ret =>
    rcases Nat.eq_zero_or_pos s.sp.val with hx | hx
    · rw [exec_ret_halts hx] at h; cases h; exact .inl ⟨_, rfl⟩
    · rw [exec_ret hx] at h; cases h; exact .inr ⟨hx, rfl⟩
  case call nnn =>
    by_cases hx : s.sp.val < 16
    · rw [exec_call hx] at h; cases h; exact .inr ⟨hx, rfl⟩
    · rw [exec_call_halts (by have := s.sp.isLt; omega)] at h; cases h; exact .inl ⟨_, rfl⟩
  case skp x =>
    by_cases hx : (s.reg x).toNat ≤ 15
    · rw [exec_skp hx] at h; cases h; split <;> simp [ExecShape]
    · rw [exec_skp_halts (by omega)] at h; cases h; exact .inl ⟨_, rfl⟩
  case sknp x =>
    by_cases hx : (s.reg x).toNat ≤ 15
    · rw [exec_sknp hx] at h; cases h; split <;> simp [ExecShape]
    · rw [exec_sknp_halts (by omega)] at h; cases h; exact .inl ⟨_, rfl⟩
  case ldB x =>
    by_cases hx : s.i.toNat + 2 < Config.memSize
    · rw [exec_ldB hx] at h; cases h; exact .inr ⟨_, _, rfl⟩
    · rw [exec_ldB_halts (by omega)] at h; cases h; exact .inl ⟨_, rfl⟩
  case storeRegs x =>
    by_cases hx : s.i.toNat + x.val < Config.memSize
    · rw [exec_storeRegs hx] at h; cases h; exact .inr ⟨_, _, rfl⟩
    · rw [exec_storeRegs_halts (by omega)] at h; cases h; exact .inl ⟨_, rfl⟩
  case loadRegs x =>
    by_cases hx : s.i.toNat + x.val < Config.memSize
    · rw [exec_loadRegs hx] at h; cases h; exact .inr ⟨_, by simp, rfl⟩
    · rw [exec_loadRegs_halts (by omega)] at h; cases h; exact .inl ⟨_, rfl⟩
  case drw x y n =>
    by_cases hx : n = 0 ∨ s.i.toNat + n ≤ Config.memSize
    · rw [exec_drw hx] at h; cases h; exact .inr ⟨_, _, rfl⟩
    · rw [exec_drw_halts (by omega) (by omega)] at h; cases h; exact .inl ⟨_, rfl⟩
  case ldVxK x =>
    cases hf : s.firstDown with
    | none => rw [exec_ldVxK_waits hf] at h; cases h; exact .inr (.inl rfl)
    | some k => rw [exec_ldVxK hf] at h; cases h; exact .inr (.inr ⟨_, rfl⟩)
  case seImm => rw [exec_seImm] at h; cases h; split <;> simp [ExecShape]
  case sneImm => rw [exec_sneImm] at h; cases h; split <;> simp [ExecShape]
  case seReg => rw [exec_seReg] at h; cases h; split <;> simp [ExecShape]
  case sneReg => rw [exec_sneReg] at h; cases h; split <;> simp [ExecShape]
  case addReg => rw [exec_addReg] at h; cases h; exact .inr ⟨_, _, flagByte_or _, rfl⟩
  case subReg => rw [exec_subReg] at h; cases h; exact .inr ⟨_, _, flagByte_or _, rfl⟩
  case subnReg => rw [exec_subnReg] at h; cases h; exact .inr ⟨_, _, flagByte_or _, rfl⟩
  case shr x y => rw [exec_shr] at h; cases h; exact .inr ⟨_, _, (by generalize s.reg x = b; revert b; decide), rfl⟩
  case shl x y => rw [exec_shl] at h; cases h; exact .inr ⟨_, _, (by generalize s.reg x = b; revert b; decide), rfl⟩
  all_goals first
   | (cases h; exact .inr rfl)
   | (cases h; exact .inr ⟨_, rfl⟩)

end Sys2Proof.Machine
end

