-- ==== Sys2Proof/Laws/PerInstr.lean ====
section
/-! SUPPORT. The family FixedBits: the word of an instruction has the fixed bits of its own row of the opcode table. -/

namespace Sys2Proof.Laws.FixedBits

/-- The encoder writes the fixed bits of a row of R94: some row of the table selects the word (R95). -/
def Statement (i : Instr) : Prop := ∃ r ∈ opcodeTable, r.selects (encode i) = true

theorem cls : Statement .cls := ⟨opcodeTable[0], List.getElem_mem _, by decide⟩

theorem ret : Statement .ret := ⟨opcodeTable[1], List.getElem_mem _, by decide⟩

theorem jp (nnn : Addr12) : Statement (.jp nnn) := by
  refine ⟨opcodeTable[2], List.getElem_mem _, ?_⟩
  change (formatNNN 0x1 nnn &&& 0xF000#16 == 0x1000#16) = true
  rw [formatNNN_and]; decide

theorem call (nnn : Addr12) : Statement (.call nnn) := by
  refine ⟨opcodeTable[3], List.getElem_mem _, ?_⟩
  change (formatNNN 0x2 nnn &&& 0xF000#16 == 0x2000#16) = true
  rw [formatNNN_and]; decide

theorem seImm (x : RegIdx) (kk : Byte) : Statement (.seImm x kk) := by
  refine ⟨opcodeTable[4], List.getElem_mem _, ?_⟩
  change (formatXKK 0x3 x kk &&& 0xF000#16 == 0x3000#16) = true
  rw [formatXKK_and]; decide

theorem sneImm (x : RegIdx) (kk : Byte) : Statement (.sneImm x kk) := by
  refine ⟨opcodeTable[5], List.getElem_mem _, ?_⟩
  change (formatXKK 0x4 x kk &&& 0xF000#16 == 0x4000#16) = true
  rw [formatXKK_and]; decide

theorem seReg (x y : RegIdx) : Statement (.seReg x y) := by
  refine ⟨opcodeTable[6], List.getElem_mem _, ?_⟩
  change (formatXY 0x5 x y 0 &&& 0xF00F#16 == 0x5000#16) = true
  rw [formatXY_and]; decide

theorem ldImm (x : RegIdx) (kk : Byte) : Statement (.ldImm x kk) := by
  refine ⟨opcodeTable[7], List.getElem_mem _, ?_⟩
  change (formatXKK 0x6 x kk &&& 0xF000#16 == 0x6000#16) = true
  rw [formatXKK_and]; decide

theorem addImm (x : RegIdx) (kk : Byte) : Statement (.addImm x kk) := by
  refine ⟨opcodeTable[8], List.getElem_mem _, ?_⟩
  change (formatXKK 0x7 x kk &&& 0xF000#16 == 0x7000#16) = true
  rw [formatXKK_and]; decide

theorem ldReg (x y : RegIdx) : Statement (.ldReg x y) := by
  refine ⟨opcodeTable[9], List.getElem_mem _, ?_⟩
  change (formatXY 0x8 x y 0 &&& 0xF00F#16 == 0x8000#16) = true
  rw [formatXY_and]; decide

theorem orReg (x y : RegIdx) : Statement (.orReg x y) := by
  refine ⟨opcodeTable[10], List.getElem_mem _, ?_⟩
  change (formatXY 0x8 x y 1 &&& 0xF00F#16 == 0x8001#16) = true
  rw [formatXY_and]; decide

theorem andReg (x y : RegIdx) : Statement (.andReg x y) := by
  refine ⟨opcodeTable[11], List.getElem_mem _, ?_⟩
  change (formatXY 0x8 x y 2 &&& 0xF00F#16 == 0x8002#16) = true
  rw [formatXY_and]; decide

theorem xorReg (x y : RegIdx) : Statement (.xorReg x y) := by
  refine ⟨opcodeTable[12], List.getElem_mem _, ?_⟩
  change (formatXY 0x8 x y 3 &&& 0xF00F#16 == 0x8003#16) = true
  rw [formatXY_and]; decide

theorem addReg (x y : RegIdx) : Statement (.addReg x y) := by
  refine ⟨opcodeTable[13], List.getElem_mem _, ?_⟩
  change (formatXY 0x8 x y 4 &&& 0xF00F#16 == 0x8004#16) = true
  rw [formatXY_and]; decide

theorem subReg (x y : RegIdx) : Statement (.subReg x y) := by
  refine ⟨opcodeTable[14], List.getElem_mem _, ?_⟩
  change (formatXY 0x8 x y 5 &&& 0xF00F#16 == 0x8005#16) = true
  rw [formatXY_and]; decide

theorem shr (x y : RegIdx) : Statement (.shr x y) := by
  refine ⟨opcodeTable[15], List.getElem_mem _, ?_⟩
  change (formatXY 0x8 x y 6 &&& 0xF00F#16 == 0x8006#16) = true
  rw [formatXY_and]; decide

theorem subnReg (x y : RegIdx) : Statement (.subnReg x y) := by
  refine ⟨opcodeTable[16], List.getElem_mem _, ?_⟩
  change (formatXY 0x8 x y 7 &&& 0xF00F#16 == 0x8007#16) = true
  rw [formatXY_and]; decide

theorem shl (x y : RegIdx) : Statement (.shl x y) := by
  refine ⟨opcodeTable[17], List.getElem_mem _, ?_⟩
  change (formatXY 0x8 x y 14 &&& 0xF00F#16 == 0x800E#16) = true
  rw [formatXY_and]; decide

theorem sneReg (x y : RegIdx) : Statement (.sneReg x y) := by
  refine ⟨opcodeTable[18], List.getElem_mem _, ?_⟩
  change (formatXY 0x9 x y 0 &&& 0xF00F#16 == 0x9000#16) = true
  rw [formatXY_and]; decide

theorem ldI (nnn : Addr12) : Statement (.ldI nnn) := by
  refine ⟨opcodeTable[19], List.getElem_mem _, ?_⟩
  change (formatNNN 0xa nnn &&& 0xF000#16 == 0xA000#16) = true
  rw [formatNNN_and]; decide

theorem jpV0 (nnn : Addr12) : Statement (.jpV0 nnn) := by
  refine ⟨opcodeTable[20], List.getElem_mem _, ?_⟩
  change (formatNNN 0xb nnn &&& 0xF000#16 == 0xB000#16) = true
  rw [formatNNN_and]; decide

theorem rnd (x : RegIdx) (kk : Byte) : Statement (.rnd x kk) := by
  refine ⟨opcodeTable[21], List.getElem_mem _, ?_⟩
  change (formatXKK 0xc x kk &&& 0xF000#16 == 0xC000#16) = true
  rw [formatXKK_and]; decide

theorem drw (x y : RegIdx) (n : Nat) : Statement (.drw x y n) := by
  refine ⟨opcodeTable[22], List.getElem_mem _, ?_⟩
  change (formatXYN 0xd x y n &&& 0xF000#16 == 0xD000#16) = true
  rw [formatXYN_and]; decide

theorem skp (x : RegIdx) : Statement (.skp x) := by
  refine ⟨opcodeTable[23], List.getElem_mem _, ?_⟩
  change (formatX 0xe x 158 &&& 0xF0FF#16 == 0xE09E#16) = true
  rw [formatX_and]; decide

theorem sknp (x : RegIdx) : Statement (.sknp x) := by
  refine ⟨opcodeTable[24], List.getElem_mem _, ?_⟩
  change (formatX 0xe x 161 &&& 0xF0FF#16 == 0xE0A1#16) = true
  rw [formatX_and]; decide

theorem ldVxDt (x : RegIdx) : Statement (.ldVxDt x) := by
  refine ⟨opcodeTable[25], List.getElem_mem _, ?_⟩
  change (formatX 0xf x 7 &&& 0xF0FF#16 == 0xF007#16) = true
  rw [formatX_and]; decide

theorem ldVxK (x : RegIdx) : Statement (.ldVxK x) := by
  refine ⟨opcodeTable[26], List.getElem_mem _, ?_⟩
  change (formatX 0xf x 10 &&& 0xF0FF#16 == 0xF00A#16) = true
  rw [formatX_and]; decide

theorem ldDtVx (x : RegIdx) : Statement (.ldDtVx x) := by
  refine ⟨opcodeTable[27], List.getElem_mem _, ?_⟩
  change (formatX 0xf x 21 &&& 0xF0FF#16 == 0xF015#16) = true
  rw [formatX_and]; decide

theorem ldStVx (x : RegIdx) : Statement (.ldStVx x) := by
  refine ⟨opcodeTable[28], List.getElem_mem _, ?_⟩
  change (formatX 0xf x 24 &&& 0xF0FF#16 == 0xF018#16) = true
  rw [formatX_and]; decide

theorem addI (x : RegIdx) : Statement (.addI x) := by
  refine ⟨opcodeTable[29], List.getElem_mem _, ?_⟩
  change (formatX 0xf x 30 &&& 0xF0FF#16 == 0xF01E#16) = true
  rw [formatX_and]; decide

theorem ldF (x : RegIdx) : Statement (.ldF x) := by
  refine ⟨opcodeTable[30], List.getElem_mem _, ?_⟩
  change (formatX 0xf x 41 &&& 0xF0FF#16 == 0xF029#16) = true
  rw [formatX_and]; decide

theorem ldB (x : RegIdx) : Statement (.ldB x) := by
  refine ⟨opcodeTable[31], List.getElem_mem _, ?_⟩
  change (formatX 0xf x 51 &&& 0xF0FF#16 == 0xF033#16) = true
  rw [formatX_and]; decide

theorem storeRegs (x : RegIdx) : Statement (.storeRegs x) := by
  refine ⟨opcodeTable[32], List.getElem_mem _, ?_⟩
  change (formatX 0xf x 85 &&& 0xF0FF#16 == 0xF055#16) = true
  rw [formatX_and]; decide

theorem loadRegs (x : RegIdx) : Statement (.loadRegs x) := by
  refine ⟨opcodeTable[33], List.getElem_mem _, ?_⟩
  change (formatX 0xf x 101 &&& 0xF0FF#16 == 0xF065#16) = true
  rw [formatX_and]; decide

end Sys2Proof.Laws.FixedBits
end

