-- ==== Sys2Proof/Laws/Step.lean ====
section
/-! SUPPORT. The step: its front end and its cases said once, and what the host's transactions do. -/

namespace Sys2Proof.Machine

/-! ### The front end -/

/-- The front end runs an instruction exactly when the word fetched at PC decodes to it (R120). -/
theorem front_run_iff {s : State} {i : Instr} :
    s.front = .run i ↔
      s.loaded = true ∧ s.status = .running ∧ ∃ w, s.fetch = .ok w ∧ decode w = .instr i := by
  unfold State.front
  cases hl : s.loaded
  · simp
  · cases hs : s.status with
    | halted c => simp
    | running =>
      cases hf : s.fetch with
      | error c => simp
      | ok w => cases hd : decode w <;> simp [hd]

/-- The front end of a halted block does nothing (R273). -/
theorem front_halted {s : State} {c : Cause} (hl : s.loaded = true) (hs : s.status = .halted c) : s.front = .idle := by
  simp [State.front, hl, hs]

/-- The front end refuses a block that never loaded (R323). -/
theorem front_neverLoaded {s : State} (hl : s.loaded = false) : s.front = .refuse .neverLoaded := by
  simp [State.front, hl]

/-- The front end halts on the fetch bound or on an unknown opcode, and on nothing else (R274). -/
theorem front_halt_iff {s : State} {c : Cause} :
    s.front = .halt c ↔
      s.loaded = true ∧ s.status = .running ∧
        (s.fetch = .error c ∨ ∃ w, s.fetch = .ok w ∧ decode w = .unknown ∧ c = .unknownOpcode) := by
  unfold State.front
  cases hl : s.loaded
  · simp
  · cases hs : s.status with
    | halted c => simp
    | running =>
      cases hf : s.fetch with
      | error c => simp
      | ok w => cases hd : decode w <;> simp [hd, eq_comm]

/-- Everything a step transaction that answers a next state can be: a halted block that stays as it is, a halt raised by
the front end, or the meaning of the decoded instruction. -/
theorem stepTransaction_cases {s t : State} (h : stepTransaction s = .next t) :
    (s.front = .idle ∧ t = s) ∨ (∃ c, s.front = .halt c ∧ t = s.setStatus (.halted c)) ∨
      (∃ i, s.front = .run i ∧ exec i s = .next t) := by
  unfold stepTransaction at h
  cases hf : s.front with
  | refuse r => simp [hf] at h
  | idle => exact .inl ⟨rfl, by simpa [hf, eq_comm] using h⟩
  | halt c => exact .inr (.inl ⟨c, rfl, by simpa [hf, eq_comm] using h⟩)
  | run i => exact .inr (.inr ⟨i, rfl, by simpa [hf] using h⟩)

/-! ### The host's transactions -/

/-- With nothing scheduled, nothing comes before the step. -/
theorem hostPhase_nil {s : State} (h : s.schedule = []) : s.hostPhase = s := by
  simp [State.hostPhase, h]

/-- With a group scheduled, the group comes before the step, and the groups after it stay. -/
theorem hostPhase_cons {s : State} {ms : List HostMove} {rest : List (List HostMove)} (h : s.schedule = ms :: rest) :
    s.hostPhase = applyMoves ms { s with schedule := rest } := by
  simp [State.hostPhase, h]

@[simp] theorem applyMoves_nil (s : State) : applyMoves [] s = s := rfl

@[simp] theorem applyMoves_cons (m : HostMove) (ms : List HostMove) (s : State) :
    applyMoves (m :: ms) s = applyMoves ms (m.apply s) := rfl

/-- A property that every transaction of the host keeps is kept by any sequence of them. -/
theorem applyMoves_induction {P : State → Prop} (hp : ∀ m s, P s → P (HostMove.apply m s)) (ms : List HostMove) {s : State}
    (h : P s) : P (applyMoves ms s) := by
  induction ms generalizing s with
  | nil => exact h
  | cons m ms ih => exact ih (hp m s h)

/-- A load that fits leaves the ROM in memory over the reset contents (R72). -/
theorem loadRom_mem (s : State) (bytes : List Byte) :
    (s.loadRom bytes).mem = (State.resetWith s.mem.glyphs).mem.writeAll Config.progBase bytes := rfl

/-- A load that does not fit changes nothing (R72). -/
theorem load_too_large {s : State} {bytes : List Byte} (h : Config.maxRom < bytes.length) : s.load bytes = s := by
  simp [State.load, romFits, Nat.not_le.2 h]

/-- A load that fits. -/
theorem load_fits {s : State} {bytes : List Byte} (h : bytes.length ≤ Config.maxRom) : s.load bytes = s.loadRom bytes := by
  simp [State.load, romFits, h]

/-- Every transaction of the host keeps the memory's canonical form. -/
theorem apply_mem_wf (m : HostMove) (s : State) (h : s.mem.wf = true) : (m.apply s).mem.wf = true := by
  cases m with
  | load bytes =>
    by_cases hb : bytes.length ≤ Config.maxRom
    · simp only [HostMove.apply, load_fits hb, loadRom_mem]
      exact Memory.wf_writeAll (resetWith_mem_wf _) _ _
    · simpa [HostMove.apply, load_too_large (Nat.not_le.1 hb)] using h
  | tickTimers => simpa [HostMove.apply, State.tickTimers] using h
  | setKeyDown k => unfold HostMove.apply State.setKeyDown; dsimp only; split <;> simpa using h
  | setKeyUp k => unfold HostMove.apply State.setKeyUp; dsimp only; split <;> simpa using h

/-- A timer counts down to 0 and stays there (R279). -/
theorem countDown_toNat (b : Byte) : (countDown b).toNat = b.toNat - 1 := by
  unfold countDown
  split
  · rename_i h
    rw [BitVec.toNat_sub_of_le (by simp only [BitVec.le_def]; exact h)]; rfl
  · omega

end Sys2Proof.Machine
end

