-- ==== Sys2Proof/Machine/Listing.lean ====
section
/-! DEFINITION. Printing a word and a listing line (R98, R99, D32). Nothing of the machine depends on it. -/

namespace Sys2Proof.Machine

/-- The hexadecimal digits, upper case as the spec's listings write them (R98). -/
def hexDigits : List String := ["0", "1", "2", "3", "4", "5", "6", "7", "8", "9", "A", "B", "C", "D", "E", "F"]

/-- `k` hexadecimal digits of a number, the most significant first. -/
def hexText : Nat → Nat → String
  | 0, _ => ""
  | k + 1, n => hexText k (n / 16) ++ hexDigits.getD (n % 16) ""

/-- A register's name, `V0` to `VF` (R98). -/
def regText (x : RegIdx) : String := "V" ++ hexText 1 x.val

/-- An immediate byte, two digits (R99). -/
def kkText (kk : Byte) : String := "0x" ++ hexText 2 kk.toNat

/-- An address, three digits (R99). -/
def nnnText (nnn : Addr12) : String := "0x" ++ hexText 3 nnn.toNat

/-- A mnemonic and two operands, destination first (R98). -/
def twoOperands (m a b : String) : String := m ++ " " ++ a ++ ", " ++ b

/-- An instruction's text: the row's mnemonic with the fields filled in (R99). -/
def instrText : Instr → String
  | .cls => "CLS"
  | .ret => "RET"
  | .jp nnn => "JP " ++ nnnText nnn
  | .call nnn => "CALL " ++ nnnText nnn
  | .seImm x kk => twoOperands "SE" (regText x) (kkText kk)
  | .sneImm x kk => twoOperands "SNE" (regText x) (kkText kk)
  | .seReg x y => twoOperands "SE" (regText x) (regText y)
  | .ldImm x kk => twoOperands "LD" (regText x) (kkText kk)
  | .addImm x kk => twoOperands "ADD" (regText x) (kkText kk)
  | .ldReg x y => twoOperands "LD" (regText x) (regText y)
  | .orReg x y => twoOperands "OR" (regText x) (regText y)
  | .andReg x y => twoOperands "AND" (regText x) (regText y)
  | .xorReg x y => twoOperands "XOR" (regText x) (regText y)
  | .addReg x y => twoOperands "ADD" (regText x) (regText y)
  | .subReg x y => twoOperands "SUB" (regText x) (regText y)
  | .shr x _ => "SHR " ++ regText x
  | .subnReg x y => twoOperands "SUBN" (regText x) (regText y)
  | .shl x _ => "SHL " ++ regText x
  | .sneReg x y => twoOperands "SNE" (regText x) (regText y)
  | .ldI nnn => twoOperands "LD" "I" (nnnText nnn)
  | .jpV0 nnn => twoOperands "JP" "V0" (nnnText nnn)
  | .rnd x kk => twoOperands "RND" (regText x) (kkText kk)
  | .drw x y n => twoOperands "DRW" (regText x) (regText y) ++ ", " ++ hexText 1 n
  | .skp x => "SKP " ++ regText x
  | .sknp x => "SKNP " ++ regText x
  | .ldVxDt x => twoOperands "LD" (regText x) "DT"
  | .ldVxK x => twoOperands "LD" (regText x) "K"
  | .ldDtVx x => twoOperands "LD" "DT" (regText x)
  | .ldStVx x => twoOperands "LD" "ST" (regText x)
  | .addI x => twoOperands "ADD" "I" (regText x)
  | .ldF x => twoOperands "LD" "F" (regText x)
  | .ldB x => twoOperands "LD" "B" (regText x)
  | .storeRegs x => twoOperands "LD" "[I]" (regText x)
  | .loadRegs x => twoOperands "LD" (regText x) "[I]"

/-- A word's text; an unknown word prints raw and has no mnemonic (R99). -/
def wordText (w : Word) : String :=
  match decode w with
  | .instr i => instrText i
  | .unknown => ".word 0x" ++ hexText 4 w.toNat

/-- A listing line: address, word, text (R98). -/
def listingLine (a : Addr12) (w : Word) : String :=
  hexText 3 a.toNat ++ ": " ++ hexText 4 w.toNat ++ "  " ++ wordText w

end Sys2Proof.Machine
end

