-- ==== Sys2Proof/Tests/Slice0.lean ====
section
/-! SUPPORT. The model's own tests. Expected values are the spec's: spec/95_test_vectors.md (E<n>, V<n>, B6), or worked out by
hand from the rule named. Then, for every statement with hypotheses, a named state and operands that meet them. -/

namespace Sys2Proof.Tests

open Sys2Proof Sys2Proof.Machine

/-! ### Well-formedness: each check refuses an ill-formed term -/

theorem test_rowCount_over_15_is_illFormed : (Instr.drw 0 1 16).wellFormed = false := by decide

theorem test_rom_over_3584_is_illFormed : romFits (List.replicate 3585 0) = false := by
  rw [romFits, List.length_replicate]; decide

/-! ### Decoding: words written out from R94, bit by bit by format (R92) -/

theorem test_decode_format_N :
    decode 0b0000000011100000 = .instr .cls ∧ decode 0b0000000011101110 = .instr .ret := by decide

theorem test_decode_format_NNN :
    decode 0b0001101010111100 = .instr (.jp 0xABC) ∧ decode 0b0010101010111100 = .instr (.call 0xABC) ∧
    decode 0xA0FF = .instr (.ldI 0x0FF) ∧ decode 0b1011001100000000 = .instr (.jpV0 0x300) := by decide

theorem test_decode_format_XKK :
    decode 0b0011101001000010 = .instr (.seImm 0xA 0x42) ∧ decode 0b0100101001000010 = .instr (.sneImm 0xA 0x42) ∧
    decode 0x6005 = .instr (.ldImm 0 0x05) ∧ decode 0b0111000100000011 = .instr (.addImm 1 0x03) ∧
    decode 0b1100010100001111 = .instr (.rnd 5 0x0F) := by decide

theorem test_decode_format_XY_skips :
    decode 0b0101101010110000 = .instr (.seReg 0xA 0xB) ∧ decode 0b1001101010110000 = .instr (.sneReg 0xA 0xB) := by decide

theorem test_decode_format_XY_alu :
    decode 0b1000000100100000 = .instr (.ldReg 1 2) ∧ decode 0b1000000100100001 = .instr (.orReg 1 2) ∧
    decode 0b1000000100100010 = .instr (.andReg 1 2) ∧ decode 0b1000000100100011 = .instr (.xorReg 1 2) ∧
    decode 0b1000000100100100 = .instr (.addReg 1 2) ∧ decode 0b1000000100100101 = .instr (.subReg 1 2) ∧
    decode 0b1000000101110110 = .instr (.shr 1 7) ∧ decode 0b1000000100100111 = .instr (.subnReg 1 2) ∧
    decode 0b1000000101111110 = .instr (.shl 1 7) := by decide

theorem test_decode_format_XYN : decode 0xD005 = .instr (.drw 0 0 5) ∧ decode 0b1101000111101111 = .instr (.drw 1 0xE 15) := by
  decide

theorem test_decode_format_X_keys :
    decode 0b1110001110011110 = .instr (.skp 3) ∧ decode 0b1110001110100001 = .instr (.sknp 3) ∧
    decode 0b1111010000001010 = .instr (.ldVxK 4) := by decide

theorem test_decode_format_X_timers :
    decode 0b1111010100000111 = .instr (.ldVxDt 5) ∧ decode 0b1111010100010101 = .instr (.ldDtVx 5) ∧
    decode 0b1111010100011000 = .instr (.ldStVx 5) := by decide

theorem test_decode_format_X_index :
    decode 0b1111001100011110 = .instr (.addI 3) ∧ decode 0b1111001100101001 = .instr (.ldF 3) ∧
    decode 0b1111001100110011 = .instr (.ldB 3) ∧ decode 0b1111001101010101 = .instr (.storeRegs 3) ∧
    decode 0b1111001001100101 = .instr (.loadRegs 2) := by decide

/-- B6: unknown words. -/
theorem test_decode_unknown :
    ([0x0000, 0x0123, 0x00E1, 0x5121, 0x9AB1, 0x8008, 0x800F, 0xE000, 0xE09F, 0xF000, 0xF0FF, 0xFFFF] : List Word).all
      (fun w => decide (decode w = .unknown)) = true := by decide

theorem test_decodeBytes_takes_two : decodeBytes [0x60, 0x05, 0xA0] = .instr (.ldImm 0 5) [0xA0] ∧
    decodeBytes [0xFF, 0xFF] = .unknown 0xFFFF ∧ decodeBytes [0x60] = .truncated := by decide

theorem test_decodeTableWord : decodeTableWord 16 0x8127 = some (.subnReg 1 2) ∧ decodeTableWord 16 0xFFFF = none := by decide

/-- The listings of P2, P3 and P6, and R99's unknown word. -/
theorem test_listing : listingLine 0x20A 0x1204 = "20A: 1204  JP 0x204" ∧ wordText 0xD011 = "DRW V0, V1, 1" ∧
    wordText 0xF255 = "LD [I], V2" ∧ wordText 0x8F1E = "SHL VF" ∧ wordText 0xFFFF = ".word 0xFFFF" := by decide

/-! ### One step: a word placed at PC, one or two places checked -/

/-- The step from a state ends in a next state with the property. -/
def ends (s : State) (p : State → Bool) : Bool :=
  match step s with
  | .next t => p t
  | .fault _ | .refused _ => false

/-- The word `w` runs from `s` to a state with the property. -/
def runs (w : Nat) (s : State) (p : State → Bool) : Bool := ends (s.withFetchWord 16 w) p

/-- The word `w` halts `s` with the cause, and nothing else changes. -/
def haltsWith (w : Nat) (s : State) (c : Cause) : Bool :=
  runs w s fun t => decide (t = { s.withFetchWord 16 w with status := .halted c })

/-- Reset, with some registers. -/
def regs (l : List (RegIdx × Byte)) : State := l.foldl (fun s p => s.setReg p.1 p.2) State.reset

/-- A state with I and bytes in memory from there. -/
def atI (s : State) (i : Word) (bs : List Byte) : State := (s.setI i).setMem (s.mem.writeAll i.toNat bs)

/-- V1, V2, V6, V7: RET and CALL, with their bounds. -/
theorem test_stack :
    runs 0x00EE (State.reset.setStack 0 0x234 1) (fun t => t.pc == 0x236 && t.sp == 0 && t.stackEntry 0 == 0x234) = true ∧
    haltsWith 0x00EE State.reset .stackUnderflow = true ∧
    runs 0x2ABC (State.reset.setSp 15) (fun t => t.pc == 0xABC && t.sp == 16 && t.stackEntry 15 == 0x200) = true ∧
    haltsWith 0x2ABC (State.reset.setSp 16) .stackOverflow = true := by decide

/-- V4, V17: an odd target, and an offset sum that is not masked. -/
theorem test_jumps :
    runs 0x1201 State.reset (fun t => t.pc == 0x201) = true ∧
    runs 0xBFFF (regs [(0, 0xFF)]) (fun t => t.pc == 0x10FE) = true := by decide

/-- V8, V9, V11, V13, V15. -/
theorem test_comparing_skips :
    runs 0x3A42 (regs [(0xA, 0x42)]) (fun t => t.pc == 0x204) = true ∧
    runs 0x3A42 (regs [(0xA, 0x43)]) (fun t => t.pc == 0x202) = true ∧
    runs 0x4A42 (regs [(0xA, 0x43)]) (fun t => t.pc == 0x204) = true ∧
    runs 0x5AB0 (regs [(0xA, 7), (0xB, 8)]) (fun t => t.pc == 0x202) = true ∧
    runs 0x9AB0 (regs [(0xA, 7), (0xB, 8)]) (fun t => t.pc == 0x204) = true := by decide

/-- V19, V20: the last word fetches, the address after it halts. -/
theorem test_fetch_bound :
    runs 0x6123 (State.reset.setPc 0xFFE) (fun t => t.reg 1 == 0x23 && t.pc == 0x1000) = true ∧
    ends (State.reset.setPc 0xFFF) (fun t => decide (t = { State.reset with pc := 0xFFF, status := .halted .outOfBounds })) = true := by decide

/-- V30 to V34: no flag. -/
theorem test_loads_and_immediate_add :
    runs 0x7103 (regs [(1, 0xFE), (0xF, 7)]) (fun t => t.reg 1 == 1 && t.reg 0xF == 7) = true ∧
    runs 0x8120 (regs [(2, 0x42)]) (fun t => t.reg 1 == 0x42) = true := by decide

/-- V35, V36, V37: VF is kept. -/
theorem test_bitwise :
    runs 0x8121 (regs [(1, 0x0F), (2, 0xF0), (0xF, 1)]) (fun t => t.reg 1 == 0xFF && t.reg 0xF == 1) = true ∧
    runs 0x8122 (regs [(1, 0x3C), (2, 0x0F)]) (fun t => t.reg 1 == 0x0C) = true ∧
    runs 0x8123 (regs [(1, 0x3C), (2, 0x0F)]) (fun t => t.reg 1 == 0x33) = true := by decide

/-- V39, V43, V46, V47: carry, the sum into VF, borrow, equality. -/
theorem test_add_and_sub :
    runs 0x8124 (regs [(1, 0xFF), (2, 1)]) (fun t => t.reg 1 == 0 && t.reg 0xF == 1) = true ∧
    runs 0x8F24 (regs [(0xF, 0xF0), (2, 0x20)]) (fun t => t.reg 0xF == 0x10) = true ∧
    runs 0x8125 (regs [(1, 3), (2, 5)]) (fun t => t.reg 1 == 0xFE && t.reg 0xF == 0) = true ∧
    runs 0x8125 (regs [(1, 7), (2, 7), (0xF, 1)]) (fun t => t.reg 1 == 0 && t.reg 0xF == 0) = true := by decide

/-- V55, V58: the original Vx (C2), and the flag written last. -/
theorem test_subn :
    runs 0x8127 (regs [(1, 0), (2, 1)]) (fun t => t.reg 1 == 1 && t.reg 0xF == 1) = true ∧
    runs 0x8F27 (regs [(0xF, 3), (2, 5)]) (fun t => t.reg 0xF == 1) = true := by decide

/-- V51, V52, V59. -/
theorem test_shifts :
    runs 0x8F06 (regs [(0xF, 3)]) (fun t => t.reg 0xF == 1) = true ∧
    runs 0x8176 (regs [(1, 4), (7, 0xFF)]) (fun t => t.reg 1 == 2 && t.reg 0xF == 0) = true ∧
    runs 0x810E (regs [(1, 0x81)]) (fun t => t.reg 1 == 2 && t.reg 0xF == 1) = true := by decide

/-- V62: an injected draw. -/
theorem test_rnd :
    runs 0xC50F { State.reset with provided := [0xAB] } (fun t => t.reg 5 == 0x0B && t.draws == 1) = true := by decide

/-- V70, V72, V74. -/
theorem test_index :
    runs 0xA123 State.reset (fun t => t.i == 0x123) = true ∧
    runs 0xF31E ((regs [(3, 1), (0xF, 0x55)]).setI 0xFFFF) (fun t => t.i == 0 && t.reg 0xF == 0x55) = true ∧
    runs 0xF329 (regs [(3, 0xFF)]) (fun t => t.i == 0x4FB) = true := by decide

/-- V76, V77. -/
theorem test_bcd :
    runs 0xF333 (atI (regs [(3, 255)]) 0xFFD []) (fun t => t.mem.read 0xFFD == 2 && t.mem.read 0xFFE == 5 && t.mem.read 0xFFF == 5) = true ∧
    haltsWith 0xF333 (atI (regs [(3, 255)]) 0xFFE []) .outOfBounds = true := by decide

/-- V78, V79, V81, V84. -/
theorem test_block_moves :
    runs 0xF055 (atI (regs [(0, 0xAB)]) 0xFFF []) (fun t => t.mem.read 0xFFF == 0xAB && t.i == 0xFFF) = true ∧
    haltsWith 0xF155 (atI (regs [(0, 0xAB)]) 0xFFF []) .outOfBounds = true ∧
    runs 0xF265 (atI (regs [(3, 0x33)]) 0x300 [9, 8, 7, 6]) (fun t => t.reg 0 == 9 && t.reg 1 == 8 && t.reg 2 == 7 && t.reg 3 == 0x33) = true ∧
    haltsWith 0xF065 (State.reset.setI 0x1000) .outOfBounds = true := by decide

/-- V90. -/
theorem test_cls :
    runs 0x00E0 (State.reset.setFb ((Framebuffer.blank.xorPixel 1 1 true).xorPixel 63 31 true))
      (fun t => decide (t.fb = Framebuffer.blank)) = true := by decide

/-- E4, V91: glyph 0 of the default table (PRESUMED, log 3) at (0, 0), row by row. -/
theorem test_drw_glyph :
    runs 0xD015 State.reset (fun t => t.reg 0xF == 0 && (t.fb.rows.toList.take 6 == [0xF, 0x9, 0x9, 0x9, 0xF, 0])) = true := by decide

/-- V93: a 0 bit over a lit pixel collides and leaves it lit. -/
theorem test_drw_zero_bit_collides :
    runs 0xD011 ((atI (regs [(0, 10), (1, 5)]) 0x300 [0]).setFb (Framebuffer.blank.xorPixel 12 5 true))
      (fun t => t.reg 0xF == 1 && t.fb.pixel 12 5) = true := by decide

/-- V110, V112, V114. -/
theorem test_key_skips :
    runs 0xE39E ((regs [(3, 5)]).setKeyDown 5) (fun t => t.pc == 0x204) = true ∧
    runs 0xE3A1 ((regs [(3, 5)]).setKeyDown 5) (fun t => t.pc == 0x202) = true ∧
    haltsWith 0xE39E (regs [(3, 16)]) .badKeyIndex = true := by decide

/-- V116, V117. -/
theorem test_key_wait :
    runs 0xF40A (regs [(4, 0x99)]) (fun t => t.pc == 0x200 && t.reg 4 == 0x99) = true ∧
    runs 0xF40A ((State.reset.setKeyDown 9).setKeyDown 3) (fun t => t.reg 4 == 3 && t.pc == 0x202) = true := by decide

/-- V115, V119, V120. -/
theorem test_timer_moves :
    runs 0xF507 (State.reset.setDt 60) (fun t => t.reg 5 == 0x3C) = true ∧
    runs 0xF515 (regs [(5, 0x3C)]) (fun t => t.dt == 60) = true ∧
    runs 0xF518 (regs [(5, 2)]) (fun t => t.st == 2 && t.tone) = true := by decide

/-- E5: a draw at (60, 30) wraps to columns 60..63, 0..3 and rows 30, 31, 0, 1. -/
theorem test_E5_drw_wraps :
    runs 0xD014 (atI (regs [(0, 60), (1, 30)]) 0x300 [0xFF, 0xFF, 0xFF, 0xFF])
      (fun t => (t.fb.rows.toList.map fun r => r == 0xF00000000000000F) ==
        [true, true] ++ List.replicate 28 false ++ [true, true]) = true := by decide

/-- E8: an unknown word halts, and the next step changes nothing and reports the cause again. -/
theorem test_E8_unknown_word :
    haltsWith 0xFFFF State.reset .unknownOpcode = true ∧
    ends { State.reset with status := .halted .unknownOpcode } (fun t =>
      decide (t = { State.reset with status := .halted .unknownOpcode }) &&
        decide (t.stepResult = .err .unknownOpcode)) = true := by decide

/-! ### The host's transactions -/

theorem test_V121_tick : (State.reset.setDt 2).tickTimers.dt = 1 ∧ State.reset.tickTimers.st = 0 := by decide
theorem test_V122_tick_while_halted :
    ({ State.reset with status := .halted .outOfBounds, dt := 5 } : State).tickTimers.dt = 4 := by decide
theorem test_V123_keys : (State.reset.setKeyDown 3).keys = 0x0008 ∧ ((State.reset.setKeyDown 3).setKeyUp 3).keys = 0 := by decide
theorem test_V124_key_16_ignored : State.reset.setKeyDown 16 = State.reset := by decide

/-- E7's ROM, loaded over a used state: R321's values, the ROM at 0x200. -/
theorem test_load : ((regs [(1, 9)]).load [0x60, 0x05]).reg 1 = 0 ∧
    ((regs [(1, 9)]).load [0x60, 0x05]).fetch = .ok 0x6005 := by decide

/-- P4's first events: a scheduled key press ends the key wait of the same step. -/
theorem test_schedule_before_step :
    ends ({ (State.reset.withFetchWord 16 0xF00A) with schedule := [[.setKeyDown 3]] }) (fun t => t.reg 0 == 3 && t.pc == 0x202)
      = true := by decide

theorem test_snapshot_next_opcode : (State.reset.setPc 0xFFF).snapshot.nextOpcode = none ∧
    State.reset.snapshot.nextOpcode = some 0 := by decide

/-- A write of the value an unlisted address reads as removes the cell: equal memories are equal data. -/
theorem test_memory_canonical :
    ((State.reset.mem.write 0x300 7).write 0x300 0) = State.reset.mem ∧ (State.reset.mem.write 0 0xF0) = State.reset.mem := by
  decide

/-! ### Witnesses: states and operands that meet the hypotheses of each statement, clause by clause -/

theorem witness_DecodeOfEncodedInstruction : (Instr.drw 15 15 15).wellFormed = true := by decide

theorem witness_EncodeOfDecodedWord : decode 0x8FF6 = .instr (.shr 15 15) ∧ decode 0xDFFF = .instr (.drw 15 15 15) := by decide

/-- Every statement that says `Encoded` has the row's own pattern as a word. -/
theorem witness_Encoded : opcodeTable.all (fun r => r.pattern &&& r.mask == r.pattern) = true := by decide

theorem witness_StepRunsDecodedInstruction :
    (State.reset.withFetchWord 16 0x6005).AtWord 0x6005 ∧ decode 0x6005 = .instr (.ldImm 0 5) ∧
      ({ State.reset with schedule := [[.tickTimers], []] } : State).schedule = [.tickTimers] :: [[]] := by decide

theorem witness_StepChecksBeforeDecoding :
    State.reset.schedule = [] ∧ State.reset.loaded = true ∧
      ({ State.reset with status := .halted .outOfBounds } : State).status = .halted .outOfBounds ∧
      (State.reset.setPc 0xFFF).status = .running ∧ 4096 ≤ (State.reset.setPc 0xFFF).pc.toNat + 1 ∧
      (State.reset.setPc 0xFFE).pc.toNat + 1 < 4096 ∧
      decode (wordOfBytes ((State.reset.setPc 0xFFE).mem.read 0xFFE) ((State.reset.setPc 0xFFE).mem.read 0xFFF)) = .unknown := by
  decide

theorem witness_FetchReadsBigEndianWord :
    4096 ≤ (State.reset.setPc 0xFFF).pc.toNat + 1 ∧ (State.reset.setPc 0xFFE).pc.toNat + 1 < 4096 := by decide

theorem witness_NeverLoadedBlockRefusesToStep :
    ({ State.reset with loaded := false } : State).schedule = [] ∧ ({ State.reset with loaded := false } : State).loaded = false := by
  decide

theorem witness_PcFollowsTheOutcome : ∃ t, exec (.seImm 0 0) State.reset = .next t ∧ t.pc = 0x204 := ⟨_, rfl, rfl⟩

theorem witness_LoadPutsTableAndRomInMemory :
    (List.replicate 3584 (1 : Byte)).length ≤ 3584 ∧ 3583 < (List.replicate 3584 (1 : Byte)).length ∧
      79 < Config.glyphSize ∧ (Config.glyphSize ≤ 80 ∧ 80 < 0x200) ∧ 0x200 + ([1] : List Byte).length ≤ 0x201 ∧
      3584 < (List.replicate 3585 (1 : Byte)).length := by
  rw [List.length_replicate, List.length_replicate]; decide

theorem witness_StepKeepsTheInvariant :
    (State.reset.withFetchWord 16 0x6005).Inv ∧ ∃ t, step (State.reset.withFetchWord 16 0x6005) = .next t :=
  ⟨by decide, _, rfl⟩

theorem witness_TransactionsKeepTheInvariant :
    State.reset.Inv ∧ ∃ t, runTransactions [.step, .move .tickTimers, .move (.load [0x60, 0x05]), .step] State.reset = .next t :=
  ⟨by decide, _, rfl⟩

theorem witness_MemoriesReadingAlikeAreEqual :
    (State.reset.mem.write 0x300 7).wf = true ∧ (((State.reset.mem.write 0x300 7).write 0x301 1).write 0x301 0).wf = true ∧
      (State.reset.mem.write 0x300 7).glyphs = (((State.reset.mem.write 0x300 7).write 0x301 1).write 0x301 0).glyphs ∧
      ∀ a, (State.reset.mem.write 0x300 7).read a = (((State.reset.mem.write 0x300 7).write 0x301 1).write 0x301 0).read a :=
  ⟨by decide, by decide, rfl, fun a => congrArg (fun m => Memory.read m a) (by decide)⟩

theorem witness_HaltedBlockStaysHalted :
    ({ State.reset with status := .halted .outOfBounds } : State).loaded = true ∧
      ({ State.reset with status := .halted .outOfBounds } : State).status = .halted .outOfBounds ∧
      ∀ bytes, Transaction.move (.load bytes) ∉ [Transaction.step, .move .tickTimers, .move (.setKeyDown 3)] := by
  refine ⟨rfl, rfl, fun bytes => ?_⟩
  simp

theorem witness_JumpSetsPc : (0xFFF : Addr12) = 0xFFF ∧ (0x200 : Addr12).toNat = State.reset.pc.toNat := by decide

theorem witness_OffsetJumpSetsPc : 0xFFF ≤ (0xFFF : Addr12).toNat + (State.reset.reg 0).toNat := by decide

theorem witness_ComparisonsSkip :
    ((0x5121 : Word) &&& 0xF000 = 0x5000 ∧ (0x5121 : Word) &&& 0x000F ≠ 0) ∧
      (0x9AB1 : Word) &&& 0xF000 = 0x9000 ∧ (0x9AB1 : Word) &&& 0x000F ≠ 0 := by decide

theorem witness_CallPushesItsOwnAddress :
    (0 : Fin 16).val = State.reset.sp.val ∧ (15 : Fin 16).val = (State.reset.setSp 15).sp.val ∧
      (State.reset.setSp 16).sp.val = 16 := by decide

theorem witness_RetPopsAndAddsTwo :
    (0 : Fin 16).val + 1 = (State.reset.setSp 1).sp.val ∧ (15 : Fin 16).val + 1 = (State.reset.setSp 16).sp.val ∧
      State.reset.sp.val = 0 := by decide

theorem witness_ReturnGoesPastItsCall :
    State.reset.sp.val < 16 ∧ ∃ t, exec (.call 0x300) State.reset = .next t ∧ (t.setReg 1 7).stack = t.stack ∧
      (t.setReg 1 7).sp = t.sp := ⟨by decide, _, rfl, rfl, rfl⟩

/-- The destinations and sources of the register statements: not VF, and one register twice. -/
theorem witness_register_operands : (0 : RegIdx) ≠ vf ∧ (14 : RegIdx) ≠ vf ∧ (3 : RegIdx) = 3 := by decide

theorem witness_RndMasksOneDraw :
    ({ State.reset with provided := [0xAB] } : State).provided = 0xAB :: [] ∧ State.reset.provided = [] ∧ (0 : Byte) = 0 := by
  decide

theorem witness_IndexLoads : 16 ≤ ((State.reset.setReg 0 16).reg 0).toNat := by decide

theorem witness_BcdStoresThreeDigits : State.reset.mem.wf = true ∧
    (State.reset.setI 0xFFD).i.toNat + 2 < 4096 ∧ 4096 ≤ (State.reset.setI 0xFFE).i.toNat + 2 := by decide

/-- For the block store, the block load and the round trip. -/
theorem witness_block_moves : State.reset.mem.wf = true ∧
    (State.reset.setI 0xFF0).i.toNat + (15 : RegIdx).val < 4096 ∧ 4096 ≤ (State.reset.setI 0xFF1).i.toNat + (15 : RegIdx).val ∧
    (15 : RegIdx) ≤ 15 := by decide

theorem witness_StoredCodeIsFetchedNext :
    (State.reset.setI 0x202).mem.wf = true ∧ (State.reset.setI 0x202).i.toNat + (1 : RegIdx).val < 4096 ∧
      (1 : RegIdx).val = (0 : RegIdx).val + 1 ∧ (1 : RegIdx) ≤ 1 ∧
      ∃ t, exec (.storeRegs 1) (State.reset.setI 0x202) = .next t ∧ t.pc.toNat = (State.reset.setI 0x202).i.toNat + (0 : RegIdx).val :=
  ⟨by decide, by decide, by decide, by decide, _, rfl, by decide⟩

theorem witness_DrawXorsTheWrappedBox :
    15 ≤ 15 ∧ InMemory (State.reset.setI 0xFF1).i.toNat 15 ∧ ¬ InMemory (State.reset.setI 0xFF2).i.toNat 15 ∧
      InMemory (State.reset.setI 0xFFFF).i.toNat 0 ∧ 14 < 15 ∧ 7 < 8 := by decide

theorem witness_DrawingTwiceGivesPixelsBack :
    15 ≤ 15 ∧ (0 : RegIdx) ≠ vf ∧ (14 : RegIdx) ≠ vf ∧ InMemory (State.reset.setI 0xFF1).i.toNat 15 := by decide

theorem witness_KeySkipsReadTheMask :
    ((State.reset.setReg 0 15).reg 0).toNat ≤ 15 ∧ 15 < ((State.reset.setReg 0 16).reg 0).toNat := by decide

theorem witness_KeyWaitTakesTheLowestKey :
    State.reset.keys = 0 ∧
      ((State.reset.setKeyDown 15).keys.getLsbD (15 : Fin 16).val = true ∧
        ∀ j : Fin 16, j < 15 → (State.reset.setKeyDown 15).keys.getLsbD j.val = false) ∧
      (State.reset.setKeyDown 0).keys.getLsbD (0 : Fin 16).val = true := by decide

theorem witness_TimerMoves : (0 : RegIdx) ≠ vf ∧ State.reset.reg 0 = 0 := by decide

theorem witness_KeyTransactionsSetOneBit : 15 < 16 ∧ 16 ≤ 16 := by decide

theorem witness_FinishedProgramStaysPut :
    (State.reset.withFetchWord 16 0x1200).schedule = [] ∧ (State.reset.withFetchWord 16 0x1200).loaded = true ∧
      (State.reset.withFetchWord 16 0x1200).finished = true := by decide

/-- For every writer that the statement names, an instruction that changes the state it writes. -/
theorem witness_EachStateHasItsWriters :
    (∃ t, exec (.ldI 5) State.reset = .next t ∧ t.i ≠ State.reset.i) ∧
    (∃ t, exec (.drw 0 1 5) State.reset = .next t ∧ t.fb.pixel 0 0 ≠ State.reset.fb.pixel 0 0) ∧
    (∃ t, exec (.call 0x300) State.reset = .next t ∧ t.sp ≠ State.reset.sp) ∧
    (∃ t, exec (.ldDtVx 1) (State.reset.setReg 1 5) = .next t ∧ t.dt ≠ (State.reset.setReg 1 5).dt) ∧
    (∃ t, exec (.ldStVx 1) (State.reset.setReg 1 5) = .next t ∧ t.st ≠ (State.reset.setReg 1 5).st) ∧
    (∃ t, exec (.storeRegs 0) (State.reset.setReg 0 5) = .next t ∧ t.mem.read 0 ≠ (State.reset.setReg 0 5).mem.read 0) ∧
    (∃ t, exec (.rnd 0 0) State.reset = .next t ∧ t.draws ≠ State.reset.draws) :=
  ⟨⟨_, rfl, by decide⟩, ⟨_, rfl, by decide⟩, ⟨_, rfl, by decide⟩, ⟨_, rfl, by decide⟩, ⟨_, rfl, by decide⟩,
    ⟨_, rfl, by decide⟩, ⟨_, rfl, by decide⟩⟩

theorem witness_FlagRegisterChangesOnlyWhereNamed :
    ∃ t, exec (.addReg 1 1) (State.reset.setReg 1 0x80) = .next t ∧ t.reg vf ≠ (State.reset.setReg 1 0x80).reg vf :=
  ⟨_, rfl, by decide⟩

theorem witness_StaleStackEntriesAffectNothing :
    (∀ k : Fin 16, k.val < (State.reset.setSp 1).sp.val →
      ((Vector.replicate 16 (0 : Word)).set 1 0x123)[k.val] = (State.reset.setSp 1).stackEntry k) ∧
      ∃ t, exec .ret (State.reset.setSp 1) = .next t := ⟨by decide, _, rfl⟩

theorem witness_RandomBytesReachOnlyRnd :
    (∀ x kk, Instr.cls ≠ .rnd x kk) ∧ ∃ t, exec .cls State.reset = .next t := ⟨fun _ _ => nofun, _, rfl⟩

theorem witness_SoundTimerIsNeverRead : ∃ t, exec (.ldStVx 0) State.reset = .next t := ⟨_, rfl⟩

end Sys2Proof.Tests
end

namespace Sys2Proof.Machine

/-! ## Shared rules: frames, halts and targets of instructions -/

/-! ### Composing frames -/

section Frames

variable {W : Place → Prop} {s t : State}

/-- Nothing changes where the state stays as it is. -/
theorem OnlyChanges.refl (W : Place → Prop) (s : State) : OnlyChanges W s s := fun p _ => by
  cases p <;> rfl

/-- A place that does not hold the same was named as one that may change. -/
theorem OnlyChanges.of_not_same (h : OnlyChanges W s t) {p : Place} (hp : ¬ p.Same s t) : W p :=
  not_not.1 fun hn => hp (h p hn)

theorem OnlyChanges.setPc (h : OnlyChanges W s t) {w : Word} (hw : W .pc) : OnlyChanges W s (t.setPc w) := fun p hp => by
  cases p with
  | pc => exact absurd hw hp
  | _ => exact h _ hp

theorem OnlyChanges.setI (h : OnlyChanges W s t) {w : Word} (hw : W .i) : OnlyChanges W s (t.setI w) := fun p hp => by
  cases p with
  | i => exact absurd hw hp
  | _ => exact h _ hp

theorem OnlyChanges.setDt (h : OnlyChanges W s t) {b : Byte} (hw : W .dt) : OnlyChanges W s (t.setDt b) := fun p hp => by
  cases p with
  | dt => exact absurd hw hp
  | _ => exact h _ hp

theorem OnlyChanges.setSt (h : OnlyChanges W s t) {b : Byte} (hw : W .st) : OnlyChanges W s (t.setSt b) := fun p hp => by
  cases p with
  | st => exact absurd hw hp
  | _ => exact h _ hp

theorem OnlyChanges.setStatus (h : OnlyChanges W s t) {x : Status} (hw : W .status) :
    OnlyChanges W s (t.setStatus x) := fun p hp => by
  cases p with
  | status => exact absurd hw hp
  | _ => exact h _ hp

theorem OnlyChanges.setSp (h : OnlyChanges W s t) {k : Fin 17} (hw : W .sp) : OnlyChanges W s (t.setSp k) := fun p hp => by
  cases p with
  | sp => exact absurd hw hp
  | _ => exact h _ hp

theorem OnlyChanges.afterDraw (h : OnlyChanges W s t) (hp : W .provided) (hd : W .draws) :
    OnlyChanges W s t.afterDraw := fun p hn => by
  cases p with
  | provided => exact absurd hp hn
  | draws => exact absurd hd hn
  | _ => exact h _ hn

theorem OnlyChanges.setReg (h : OnlyChanges W s t) {x : RegIdx} {b : Byte} (hw : W (.reg x)) :
    OnlyChanges W s (t.setReg x b) := fun p hp => by
  cases p with
  | reg k => exact (State.setReg_reg_other t (by rintro rfl; exact hp hw) b).trans (h _ hp)
  | _ => exact h _ hp

theorem OnlyChanges.setStack (h : OnlyChanges W s t) {k : Fin 16} {w : Word} {n : Fin 17} (hw : W (.stackEntry k))
    (hn : W .sp) : OnlyChanges W s (t.setStack k w n) := fun p hp => by
  cases p with
  | sp => exact absurd hn hp
  | stackEntry j =>
    have hj : j ≠ k := by rintro rfl; exact hp hw
    simpa [State.setStack_stackEntry, hj] using h _ hp
  | _ => exact h _ hp

/-- A new framebuffer, where it agrees with the old one on every pixel that may not change. -/
theorem OnlyChanges.setFb (h : OnlyChanges W s t) {f : Framebuffer}
    (hf : ∀ (a : Fin 64) (b : Fin 32), ¬ W (.pixel a b) → f.pixel a.val b.val = s.fb.pixel a.val b.val) :
    OnlyChanges W s (t.setFb f) := fun p hp => by
  cases p with
  | pixel a b => exact hf a b hp
  | _ => exact h _ hp

/-- A block of bytes stored from `a` upward (R66). -/
theorem OnlyChanges.writeAll (h : OnlyChanges W s t) {a : Nat} {bs : List Byte}
    (hw : ∀ k, k < bs.length → W (.byte (a + k))) : OnlyChanges W s (t.setMem (t.mem.writeAll a bs)) := fun p hp => by
  cases p with
  | byte c =>
    have hc : c < a ∨ a + bs.length ≤ c := by
      by_contra hin
      exact hp (by simpa [show a + (c - a) = c by omega] using hw (c - a) (by omega))
    exact (Memory.read_writeAll_outside t.mem hc).trans (h _ hp)
  | glyphs => exact (Memory.writeAll_glyphs t.mem a bs).trans (h _ hp)
  | _ => exact h _ hp

/-- A block of bytes loaded into the registers from `V[k]` upward (R195). -/
theorem OnlyChanges.setRegsFrom (h : OnlyChanges W s t) {k : Nat} {bs : List Byte}
    (hw : ∀ j : RegIdx, k ≤ j.val → j.val < k + bs.length → W (.reg j)) : OnlyChanges W s (t.setRegsFrom k bs) := by
  induction bs generalizing t k with
  | nil => exact h
  | cons b bs ih =>
    simp only [List.length_cons] at hw
    rw [State.setRegsFrom]
    split
    · next hk =>
      exact ih (h.setReg (hw ⟨k, hk⟩ (Nat.le_refl k) (by simp only; omega))) fun j h1 h2 => hw j (by omega) (by omega)
    · exact h

end Frames

theorem setRegsFrom_mem (s : State) (k : Nat) (bs : List Byte) : (s.setRegsFrom k bs).mem = s.mem := by
  obtain ⟨v, hv⟩ := setRegsFrom_frame s k bs
  rw [hv]

theorem setRegsFrom_status (s : State) (k : Nat) (bs : List Byte) : (s.setRegsFrom k bs).status = s.status := by
  obtain ⟨v, hv⟩ := setRegsFrom_frame s k bs
  rw [hv]

/-! ### The places an instruction writes -/

/-- The places an instruction may write where it does not halt (R12). -/
def Writes : Instr → Place → Prop
  | .jp _ | .jpV0 _ | .seImm _ _ | .sneImm _ _ | .seReg _ _ | .sneReg _ _ | .skp _ | .sknp _ => fun p => p = .pc
  | .cls => fun p => p = .pc ∨ ∃ a b, p = .pixel a b
  | .ret => fun p => p = .pc ∨ p = .sp
  | .call _ => fun p => p = .pc ∨ p = .sp ∨ ∃ k, p = .stackEntry k
  | .ldImm x _ | .addImm x _ | .ldReg x _ | .orReg x _ | .andReg x _ | .xorReg x _ | .ldVxDt x | .ldVxK x =>
      fun p => p = .reg x ∨ p = .pc
  | .rnd x _ => fun p => p = .reg x ∨ p = .pc ∨ p = .draws ∨ p = .provided
  | .addReg x _ | .subReg x _ | .shr x _ | .subnReg x _ | .shl x _ => fun p => p = .reg x ∨ p = .reg vf ∨ p = .pc
  | .ldI _ | .addI _ | .ldF _ => fun p => p = .i ∨ p = .pc
  | .drw _ _ _ => fun p => p = .pc ∨ p = .reg vf ∨ ∃ a b, p = .pixel a b
  | .ldDtVx _ => fun p => p = .dt ∨ p = .pc
  | .ldStVx _ => fun p => p = .st ∨ p = .pc
  | .ldB _ | .storeRegs _ => fun p => p = .pc ∨ ∃ a, p = .byte a
  | .loadRegs x => fun p => p = .pc ∨ ∃ k, k ≤ x ∧ p = .reg k

/-- An instruction that does not halt changes only the places it writes (R12). -/
theorem ExecShape.frame {i : Instr} {s t : State} (hs : ExecShape s t i) : OnlyChanges (Writes i) s t := by
  have h0 := OnlyChanges.refl (Writes i) s
  cases i with
  | jp nnn | jpV0 nnn =>
    subst hs; exact h0.setPc rfl
  | seImm x kk | sneImm x kk | seReg x y | sneReg x y | skp x | sknp x =>
    obtain rfl | rfl := hs <;> exact h0.setPc rfl
  | cls =>
    subst hs; exact (h0.setFb fun a b hn => absurd (.inr ⟨a, b, rfl⟩) hn).setPc (.inl rfl)
  | ret =>
    obtain ⟨_, rfl⟩ := hs; exact (h0.setSp (.inr rfl)).setPc (.inl rfl)
  | call nnn =>
    obtain ⟨_, rfl⟩ := hs; exact (h0.setStack (.inr (.inr ⟨_, rfl⟩)) (.inr (.inl rfl))).setPc (.inl rfl)
  | ldImm x kk | addImm x kk | ldReg x y | orReg x y | andReg x y | xorReg x y | ldVxDt x =>
    obtain ⟨_, rfl⟩ := hs; exact (h0.setReg (.inl rfl)).setPc (.inr rfl)
  | ldVxK x =>
    obtain rfl | ⟨_, rfl⟩ := hs
    · exact h0
    · exact (h0.setReg (.inl rfl)).setPc (.inr rfl)
  | rnd x kk =>
    obtain ⟨_, rfl⟩ := hs
    exact ((h0.afterDraw (.inr (.inr (.inr rfl))) (.inr (.inr (.inl rfl)))).setReg (.inl rfl)).setPc (.inr (.inl rfl))
  | addReg x y | subReg x y | shr x y | shl x y =>
    obtain ⟨_, _, -, rfl⟩ := hs
    exact ((h0.setReg (.inr (.inl rfl))).setReg (.inl rfl)).setPc (.inr (.inr rfl))
  | subnReg x y =>
    obtain ⟨_, _, -, rfl⟩ := hs
    exact ((h0.setReg (.inl rfl)).setReg (.inr (.inl rfl))).setPc (.inr (.inr rfl))
  | ldI nnn | addI x | ldF x =>
    obtain ⟨_, rfl⟩ := hs; exact (h0.setI (.inl rfl)).setPc (.inr rfl)
  | drw x y n =>
    obtain ⟨_, _, rfl⟩ := hs
    exact ((h0.setFb fun a b hn => absurd (.inr (.inr ⟨a, b, rfl⟩)) hn).setReg (.inr (.inl rfl))).setPc (.inl rfl)
  | ldDtVx x =>
    subst hs; exact (h0.setDt (.inl rfl)).setPc (.inr rfl)
  | ldStVx x =>
    subst hs; exact (h0.setSt (.inl rfl)).setPc (.inr rfl)
  | ldB x | storeRegs x =>
    obtain ⟨_, _, rfl⟩ := hs; exact (h0.writeAll fun _ _ => .inr ⟨_, rfl⟩).setPc (.inl rfl)
  | loadRegs x =>
    obtain ⟨bs, hl, rfl⟩ := hs
    exact (h0.setRegsFrom fun j _ hj => .inr ⟨j, by simp only [Fin.le_def]; omega, rfl⟩).setPc (.inl rfl)

/-! ### The causes an instruction halts with -/

/-- The one cause an instruction can halt with, where it has one (R271). -/
def haltCause : Instr → Option Cause
  | .ret => some .stackUnderflow
  | .call _ => some .stackOverflow
  | .skp _ | .sknp _ => some .badKeyIndex
  | .drw _ _ _ | .ldB _ | .storeRegs _ | .loadRegs _ => some .outOfBounds
  | .cls | .jp _ | .jpV0 _ | .seImm _ _ | .sneImm _ _ | .seReg _ _ | .sneReg _ _ | .ldImm _ _ | .addImm _ _ | .ldReg _ _
  | .orReg _ _ | .andReg _ _ | .xorReg _ _ | .addReg _ _ | .subReg _ _ | .shr _ _ | .subnReg _ _ | .shl _ _ | .ldI _
  | .rnd _ _ | .ldVxDt _ | .ldVxK _ | .ldDtVx _ | .ldStVx _ | .addI _ | .ldF _ => none

/-- Every instruction answers a next state; there it has left Status alone, or halted with its own cause (R120, R271). -/
theorem exec_total (i : Instr) (s : State) : ∃ t, exec i s = .next t ∧
    (t.status = s.status ∨ ∃ c, haltCause i = some c ∧ t.status = .halted c) := by
  cases i with
  | ret =>
    rcases Nat.eq_zero_or_pos s.sp.val with hx | hx
    · exact ⟨_, exec_ret_halts hx, .inr ⟨_, rfl, rfl⟩⟩
    · exact ⟨_, exec_ret hx, .inl rfl⟩
  | call nnn =>
    by_cases hx : s.sp.val < 16
    · exact ⟨_, exec_call hx, .inl rfl⟩
    · exact ⟨_, exec_call_halts (by have := s.sp.isLt; omega), .inr ⟨_, rfl, rfl⟩⟩
  | skp x =>
    by_cases hx : (s.reg x).toNat ≤ 15
    · exact ⟨_, exec_skp hx, .inl rfl⟩
    · exact ⟨_, exec_skp_halts (by omega), .inr ⟨_, rfl, rfl⟩⟩
  | sknp x =>
    by_cases hx : (s.reg x).toNat ≤ 15
    · exact ⟨_, exec_sknp hx, .inl rfl⟩
    · exact ⟨_, exec_sknp_halts (by omega), .inr ⟨_, rfl, rfl⟩⟩
  | drw x y n =>
    by_cases hx : n = 0 ∨ s.i.toNat + n ≤ Config.memSize
    · exact ⟨_, exec_drw hx, .inl rfl⟩
    · exact ⟨_, exec_drw_halts (by omega) (by omega), .inr ⟨_, rfl, rfl⟩⟩
  | ldB x =>
    rcases Nat.lt_or_ge (s.i.toNat + 2) Config.memSize with hx | hx
    · exact ⟨_, exec_ldB hx, .inl rfl⟩
    · exact ⟨_, exec_ldB_halts hx, .inr ⟨_, rfl, rfl⟩⟩
  | storeRegs x =>
    rcases Nat.lt_or_ge (s.i.toNat + x.val) Config.memSize with hx | hx
    · exact ⟨_, exec_storeRegs hx, .inl rfl⟩
    · exact ⟨_, exec_storeRegs_halts hx, .inr ⟨_, rfl, rfl⟩⟩
  | loadRegs x =>
    rcases Nat.lt_or_ge (s.i.toNat + x.val) Config.memSize with hx | hx
    · exact ⟨_, exec_loadRegs hx, .inl (setRegsFrom_status s _ _)⟩
    · exact ⟨_, exec_loadRegs_halts hx, .inr ⟨_, rfl, rfl⟩⟩
  | ldVxK x =>
    cases hf : s.firstDown with
    | none => exact ⟨_, exec_ldVxK_waits hf, .inl rfl⟩
    | some k => exact ⟨_, exec_ldVxK hf, .inl rfl⟩
  | _ => exact ⟨_, rfl, .inl rfl⟩

/-- What an instruction leaves in Status: what was there, or a halt with its own cause (R271, R272). -/
theorem exec_status {i : Instr} {s t : State} (h : exec i s = .next t) :
    t.status = s.status ∨ ∃ c, haltCause i = some c ∧ t.status = .halted c := by
  obtain ⟨u, hu, hst⟩ := exec_total i s
  obtain rfl : u = t := by simpa [hu] using h
  exact hst

/-- An instruction changes nothing but the places it writes, and Status where it halts (R12, R272). -/
theorem exec_frame {i : Instr} {s t : State} (h : exec i s = .next t) :
    OnlyChanges (fun p => p = .status ∨ Writes i p) s t := by
  rcases exec_cases h with ⟨c, rfl⟩ | hs
  · exact (OnlyChanges.refl _ s).setStatus (.inl rfl)
  · exact fun p hp => hs.frame p fun hw => hp (.inr hw)

/-- An instruction without a halt runs, and changes nothing but the places it writes (R12). -/
theorem exec_frame_of_haltCause_none {i : Instr} (hi : haltCause i = none) (s : State) :
    ∃ t, exec i s = .next t ∧ OnlyChanges (Writes i) s t := by
  obtain ⟨t, ht, hst | ⟨c, hc, -⟩⟩ := exec_total i s
  · refine ⟨t, ht, fun p hp => ?_⟩
    by_cases h : p = .status
    · subst h; exact hst
    · exact exec_frame ht p (by simp [h, hp])
  · simp [hi] at hc

/-- The row of a number in the table gives its instruction's encoding (R94, R95). -/
theorem encoded_of_row {k : Nat} (hk : k < opcodeTable.length) :
    Encoded opcodeTable[k].pattern opcodeTable[k].mask opcodeTable[k].build := fun _ h => decode_of_getElem hk h

/-! ## The frames of the instructions that always complete -/

/-- Settles O21: no jump and no comparing skip halts, and each writes PC alone. -/
theorem jumpsAndSkipsChangePcOnly : Obligations.JumpsAndSkipsChangePcOnly := by
  intro x y kk nnn s i hi
  simp only [List.mem_cons, List.not_mem_nil, or_false] at hi
  rcases hi with rfl | rfl | rfl | rfl | rfl | rfl <;> exact exec_frame_of_haltCause_none rfl s

/-- Settles O32: none of these halts, and each writes its destination and PC. -/
theorem oneRegisterInstructionsFrame : Obligations.OneRegisterInstructionsFrame := by
  intro x y kk s i hi
  simp only [List.mem_cons, List.not_mem_nil, or_false] at hi
  rcases hi with rfl | rfl | rfl | rfl | rfl | rfl | rfl <;> exact exec_frame_of_haltCause_none rfl s

/-- Settles O33: none of these halts, and each writes its destination, the flag and PC. -/
theorem flagInstructionsFrame : Obligations.FlagInstructionsFrame := by
  intro x y s i hi
  simp only [List.mem_cons, List.not_mem_nil, or_false] at hi
  rcases hi with rfl | rfl | rfl | rfl | rfl <;> exact exec_frame_of_haltCause_none rfl s

/-- Settles O36: none of these halts, and each writes I and PC. -/
theorem indexInstructionsFrame : Obligations.IndexInstructionsFrame := by
  intro nnn x s i hi
  simp only [List.mem_cons, List.not_mem_nil, or_false] at hi
  rcases hi with rfl | rfl | rfl <;> exact exec_frame_of_haltCause_none rfl s

/-- Settles O48: neither halts, and each writes its timer and PC. -/
theorem timerInstructionsFrame : Obligations.TimerInstructionsFrame := fun x s =>
  ⟨exec_frame_of_haltCause_none (i := .ldDtVx x) rfl s, exec_frame_of_haltCause_none (i := .ldStVx x) rfl s⟩

/-! ## The instructions that write memory, registers from memory, or pixels -/

/-- The digits LD B,Vx stores, as numbers (R193). -/
theorem bcdDigits_toNat (a : Byte) : (bcdDigits a)[0].toNat = a.toNat / 100 ∧
    (bcdDigits a)[1].toNat = a.toNat / 10 % 10 ∧ (bcdDigits a)[2].toNat = a.toNat % 10 := by
  have := a.isLt
  simp only [bcdDigits, List.getElem_cons_zero, List.getElem_cons_succ, BitVec.toNat_ofNat]
  omega

/-- Settles O37: the digits are the block stored at I, read back byte by byte. -/
theorem bcdStoresThreeDigits : Obligations.BcdStoresThreeDigits := by
  refine ⟨encoded_of_row (k := 31) (by decide), fun x s hwf => ⟨fun hb => ?_, exec_ldB_halts⟩⟩
  have hread : ∀ k (hk : k < 3), ((s.mem.writeAll s.i.toNat (bcdDigits (s.reg x))).read (s.i.toNat + k)).toNat =
      (bcdDigits (s.reg x))[k].toNat := fun k hk =>
    congrArg BitVec.toNat (Memory.read_writeAll_inside hwf hb hk)
  obtain ⟨hundreds, tens, ones⟩ := bcdDigits_toNat (s.reg x)
  exact ⟨_, exec_ldB hb, rfl, (hread 0 (by decide)).trans hundreds, (hread 1 (by decide)).trans tens,
    (hread 2 (by decide)).trans ones, ((OnlyChanges.refl _ s).writeAll fun k hk => .inr ⟨k, hk, rfl⟩).setPc (.inl rfl)⟩

/-- Settles O38: the latched registers are the block stored at I, read back byte by byte. -/
theorem blockStoreWritesRegisters : Obligations.BlockStoreWritesRegisters := by
  refine ⟨encoded_of_row (k := 32) (by decide), fun x s hwf => ⟨fun hb => ?_, exec_storeRegs_halts⟩⟩
  refine ⟨_, exec_storeRegs hb, rfl, fun k hk => ?_, ((OnlyChanges.refl _ s).writeAll fun k hk => ?_).setPc (.inl rfl)⟩
  · have hl : k.val < (s.regsTo x).length := by rw [regsTo_length]; exact Nat.lt_succ_of_le hk
    have hin : s.i.toNat + (s.regsTo x).length ≤ Config.memSize := by rw [regsTo_length]; exact hb
    exact (Memory.read_writeAll_inside hwf hin hl).trans (regsTo_getElem s x hl)
  · rw [regsTo_length] at hk
    exact .inr ⟨k, by omega, rfl⟩

/-- Settles O39: the block read from I is loaded register by register. -/
theorem blockLoadReadsRegisters : Obligations.BlockLoadReadsRegisters := by
  refine ⟨encoded_of_row (k := 33) (by decide), fun x s => ⟨fun hb => ?_, exec_loadRegs_halts⟩⟩
  refine ⟨_, exec_loadRegs hb, rfl, fun k hk => ?_, ((OnlyChanges.refl _ s).setRegsFrom fun j _ hj => ?_).setPc (.inl rfl)⟩
  · have hl : k.val < x.val + 1 := Nat.lt_succ_of_le hk
    simp [setRegsFrom_reg, hl]
  · have hx : j.val < x.val + 1 := by simpa using hj
    exact .inr ⟨j, Nat.le_of_lt_succ hx, rfl⟩

/-- Settles O42: the blank framebuffer is dark, and CLS writes the pixels and PC alone. -/
theorem clearScreenDarkensEveryPixel : Obligations.ClearScreenDarkensEveryPixel :=
  ⟨encoded_of_row (k := 0) (by decide), fun s => ⟨_, exec_cls s, rfl, pixel_blank, ExecShape.frame (i := .cls) rfl⟩⟩

/-! ### DRW -/

/-- The byte a draw reads for row `r` (R221). -/
theorem spriteRows_getElem (s : State) {n r : Nat} (h : r < (spriteRows s n).length) :
    (spriteRows s n)[r] = s.mem.read (s.i.toNat + r) := by
  simp [spriteRows]

/-- A pixel of the wrapped box after a draw (R221, R222). -/
theorem drawn_pixel_inside (s : State) (x y : RegIdx) {n r c : Nat} (hn : n ≤ 15) (hr : r < n) (hc : c < 8) :
    (drawn s x y n).1.pixel (originX (s.reg x) + c) (originY (s.reg y) + r) =
      (s.fb.pixel (originX (s.reg x) + c) (originY (s.reg y) + r) ^^
        (s.mem.read (s.i.toNat + r)).getLsbD (7 - c)) := by
  have hl : r < (spriteRows s n).length := by simpa using hr
  rw [drawn, drawRows_inside (by simp; omega) hl hc, spriteRows_getElem]

/-- A pixel outside the wrapped box after a draw (R221). -/
theorem drawn_pixel_outside (s : State) (x y : RegIdx) {n a b : Nat}
    (h : ∀ r c, r < n → c < 8 → ¬ (a % 64 = (originX (s.reg x) + c) % 64 ∧ b % 32 = (originY (s.reg y) + r) % 32)) :
    (drawn s x y n).1.pixel a b = s.fb.pixel a b :=
  drawRows_outside fun r hr c hc => h r c (by simpa using hr) hc

/-- A draw collides exactly when a pixel of the box was lit (R223). -/
theorem drawn_hit (s : State) (x y : RegIdx) {n : Nat} (hn : n ≤ 15) :
    (drawn s x y n).2 = true ↔
      ∃ r c, r < n ∧ c < 8 ∧ s.fb.pixel (originX (s.reg x) + c) (originY (s.reg y) + r) = true := by
  rw [drawn, drawRows_hit (by simp; omega)]
  simp

/-- Coordinates wrapped by the reader are wrapped once (R31). -/
theorem pixel_mod (f : Framebuffer) (a b : Nat) : f.pixel (a % 64) (b % 32) = f.pixel a b :=
  pixel_congr f (Nat.mod_mod _ _) (Nat.mod_mod _ _)

/-- Settles O43: inside the box by the XOR of its rows, outside by the frame of a draw, the flag by its collision. -/
theorem drawXorsTheWrappedBox : Obligations.DrawXorsTheWrappedBox := by
  refine ⟨encoded_of_row (k := 22) (by decide), fun x y n s hn => ⟨fun hb => ?_, fun hb => ?_⟩⟩
  · simp only [pixel_mod]
    refine ⟨_, exec_drw hb, rfl, fun r c hr hc => drawn_pixel_inside s x y hn hr hc, ?_, ?_,
      (((OnlyChanges.refl _ s).setFb fun a b hab => ?_).setReg (.inr (.inl rfl))).setPc (.inl rfl)⟩
    · rw [State.setPc_reg, State.setReg_reg_same, flagByte_eq_one]
      exact drawn_hit s x y hn
    · rw [State.setPc_reg, State.setReg_reg_same]
      exact flagByte_or _
    · refine drawn_pixel_outside s x y fun r c hr hc ⟨ha, hb⟩ => hab (.inr (.inr ⟨a, b, rfl, r, c, hr, hc, ?_, ?_⟩))
      · rwa [Nat.mod_eq_of_lt a.isLt] at ha
      · rwa [Nat.mod_eq_of_lt b.isLt] at hb
  · have ⟨h0, hout⟩ := not_or.1 hb
    exact exec_drw_halts h0 (Nat.not_le.1 hout)

/-! ## Which instruction writes which state -/

theorem writes_i_iff {i : Instr} : Writes i .i ↔ (∃ nnn, i = .ldI nnn) ∨ ∃ x, i = .addI x ∨ i = .ldF x := by
  cases i <;> simp [Writes]

theorem writes_pixel_iff {i : Instr} {a : Fin 64} {b : Fin 32} :
    Writes i (.pixel a b) ↔ i = .cls ∨ ∃ x y n, i = .drw x y n := by
  cases i <;> simp [Writes]

theorem writes_sp_iff {i : Instr} : Writes i .sp ↔ i = .ret ∨ ∃ nnn, i = .call nnn := by
  cases i <;> simp [Writes]

theorem writes_stackEntry_iff {i : Instr} {k : Fin 16} : Writes i (.stackEntry k) ↔ ∃ nnn, i = .call nnn := by
  cases i <;> simp [Writes]

theorem writes_dt_iff {i : Instr} : Writes i .dt ↔ ∃ x, i = .ldDtVx x := by
  cases i <;> simp [Writes]

theorem writes_st_iff {i : Instr} : Writes i .st ↔ ∃ x, i = .ldStVx x := by
  cases i <;> simp [Writes]

theorem writes_byte_iff {i : Instr} {a : Nat} : Writes i (.byte a) ↔ ∃ x, i = .ldB x ∨ i = .storeRegs x := by
  cases i <;> simp [Writes]

theorem writes_draws_iff {i : Instr} : Writes i .draws ↔ ∃ x kk, i = .rnd x kk := by
  cases i <;> simp [Writes]

theorem writes_provided_iff {i : Instr} : Writes i .provided ↔ ∃ x kk, i = .rnd x kk := by
  cases i <;> simp [Writes]

/-- The keypad, the glyph table, `loaded` and the schedule are written by no instruction (R30, R34). -/
theorem not_writes_host_places (i : Instr) :
    ¬ Writes i .keys ∧ ¬ Writes i .glyphs ∧ ¬ Writes i .loaded ∧ ¬ Writes i .schedule := by
  cases i <;> simp [Writes]

/-- A place other than Status that an instruction changes is one it writes. -/
theorem writes_of_changed {i : Instr} {s t : State} (h : exec i s = .next t) {p : Place} (hp : p ≠ .status)
    (hc : ¬ p.Same s t) : Writes i p :=
  ((exec_frame h).of_not_same hc).resolve_left hp

/-- Settles O52: a changed place is one the instruction writes, and each place has its writers. -/
theorem eachStateHasItsWriters : Obligations.EachStateHasItsWriters := by
  intro i s t h
  have hw : ∀ {p : Place}, p ≠ .status → ¬ p.Same s t → Writes i p := writes_of_changed h
  obtain ⟨hkeys, hglyphs, hloaded, hschedule⟩ := not_writes_host_places i
  refine ⟨fun hc => ?_, fun ⟨a, b, hc⟩ => ?_, fun hc => ?_, fun hc => ?_, fun hc => ?_, fun ⟨a, hc⟩ => ?_, fun hc => ?_,
    ?_, ?_, ?_, ?_⟩
  · exact writes_i_iff.1 (hw nofun hc)
  · rw [← pixel_mod t.fb, ← pixel_mod s.fb] at hc
    exact writes_pixel_iff.1 (hw (p := .pixel ⟨a % 64, by omega⟩ ⟨b % 32, by omega⟩) nofun hc)
  · obtain hc | ⟨k, hc⟩ := hc
    · exact writes_sp_iff.1 (hw nofun hc)
    · exact .inr (writes_stackEntry_iff.1 (hw (p := .stackEntry k) nofun hc))
  · exact writes_dt_iff.1 (hw nofun hc)
  · exact writes_st_iff.1 (hw nofun hc)
  · exact writes_byte_iff.1 (hw (p := .byte a) nofun hc)
  · obtain hc | hc := hc
    · exact writes_draws_iff.1 (hw nofun hc)
    · exact writes_provided_iff.1 (hw nofun hc)
  · exact not_not.1 fun hc => hkeys (hw nofun hc)
  · exact not_not.1 fun hc => hglyphs (hw nofun hc)
  · exact not_not.1 fun hc => hloaded (hw nofun hc)
  · exact not_not.1 fun hc => hschedule (hw nofun hc)

/-- The instructions whose last write to VF is a flag (R22, R150). -/
def LeavesFlag : Instr → Prop
  | .addReg x _ | .subReg x _ | .shr x _ | .shl x _ => x ≠ vf
  | .subnReg _ _ | .drw _ _ _ => True
  | _ => False

/-- Where the last write to VF is a flag, VF holds 0 or 1 (R22). -/
theorem ExecShape.flag {i : Instr} {s t : State} (hs : ExecShape s t i) (hi : LeavesFlag i) :
    t.reg vf = 0 ∨ t.reg vf = 1 := by
  cases i with
  | addReg x y | subReg x y | shr x y | shl x y =>
    obtain ⟨f, b, hf, rfl⟩ := hs
    rwa [State.setPc_reg, State.setReg_reg_other _ (Ne.symm hi), State.setReg_reg_same]
  | subnReg x y =>
    obtain ⟨f, b, hf, rfl⟩ := hs
    rwa [State.setPc_reg, State.setReg_reg_same]
  | drw x y n =>
    obtain ⟨f, hit, rfl⟩ := hs
    rw [State.setPc_reg, State.setReg_reg_same]
    exact flagByte_or hit
  | _ => exact hi.elim

theorem leavesFlag_iff {i : Instr} : LeavesFlag i ↔
    (∃ x y, x ≠ vf ∧ (i = .addReg x y ∨ i = .subReg x y ∨ i = .shr x y ∨ i = .shl x y)) ∨ (∃ x y, i = .subnReg x y) ∨
      ∃ x y n, i = .drw x y n := by
  cases i <;> simp [LeavesFlag]

/-- An instruction that writes VF leaves a flag there or names VF as its destination (R22). -/
theorem leavesFlag_or_named_of_writes {i : Instr} (hw : Writes i (.reg vf)) : LeavesFlag i ∨
    (∃ kk, i = .ldImm vf kk ∨ i = .addImm vf kk ∨ i = .rnd vf kk) ∨
    (∃ y, i = .ldReg vf y ∨ i = .orReg vf y ∨ i = .andReg vf y ∨ i = .xorReg vf y ∨ i = .addReg vf y ∨
      i = .subReg vf y ∨ i = .shr vf y ∨ i = .shl vf y) ∨
    i = .ldVxDt vf ∨ i = .ldVxK vf ∨ i = .loadRegs vf := by
  cases i with
  | loadRegs x =>
    have hx : vf ≤ x := by simpa [Writes] using hw
    simp [le_antisymm (Fin.le_last x) hx]
  | addReg x y | subReg x y | shr x y | shl x y => by_cases hx : x = vf <;> simp [LeavesFlag, hx]
  | _ => simp_all [LeavesFlag, Writes]

/-- Settles O53: a changed VF is one the instruction writes; its writers leave a flag there or name it. -/
theorem flagRegisterChangesOnlyWhereNamed : Obligations.FlagRegisterChangesOnlyWhereNamed := by
  intro i s t h hc
  rcases exec_cases h with ⟨c, rfl⟩ | hs
  · exact absurd rfl hc
  refine (leavesFlag_or_named_of_writes (writes_of_changed h nofun hc)).imp_left fun hl => ⟨hs.flag hl, ?_⟩
  obtain ⟨x, y, -, hi⟩ | ⟨x, y, rfl⟩ | ⟨x, y, n, rfl⟩ := leavesFlag_iff.1 hl
  · exact .inl ⟨x, y, by tauto⟩
  · exact .inl ⟨x, y, by simp⟩
  · exact .inr ⟨x, y, n, rfl⟩

/-! ## The random-byte provider -/

/-- The state with another random-byte provider (R287; log 2). -/
def State.withRandom (s : State) (bytes : List Byte) (d : Nat) : State := { s with provided := bytes, draws := d }

theorem setRegsFrom_withRandom (s : State) (bytes : List Byte) (d k : Nat) (bs : List Byte) :
    (s.withRandom bytes d).setRegsFrom k bs = (s.setRegsFrom k bs).withRandom bytes d := by
  induction bs generalizing s k with
  | nil => rfl
  | cons b bs ih =>
    rw [State.setRegsFrom, State.setRegsFrom]
    split
    · exact ih (s.setReg _ b) (k + 1)
    · rfl

/-- Under another provider every instruction but RND does the same: its check reads no random byte, and its updates keep
the provider (R12, R287). -/
theorem exec_withRandom {i : Instr} (hi : ∀ x kk, i ≠ .rnd x kk) (s : State) (bytes : List Byte) (d : Nat) :
    ∃ t, exec i s = .next t ∧ exec i (s.withRandom bytes d) = .next (t.withRandom bytes d) := by
  cases i with
  | rnd x kk => exact absurd rfl (hi x kk)
  | ret =>
    rcases Nat.eq_zero_or_pos s.sp.val with hx | hx
    · exact ⟨_, exec_ret_halts hx, exec_ret_halts hx⟩
    · exact ⟨_, exec_ret hx, exec_ret (s := s.withRandom bytes d) hx⟩
  | call nnn =>
    by_cases hx : s.sp.val < 16
    · exact ⟨_, exec_call hx, exec_call (s := s.withRandom bytes d) hx⟩
    · have hx : s.sp.val = 16 := by have := s.sp.isLt; omega
      exact ⟨_, exec_call_halts hx, exec_call_halts hx⟩
  | skp x =>
    rcases Nat.lt_or_ge 15 (s.reg x).toNat with hx | hx
    · exact ⟨_, exec_skp_halts hx, exec_skp_halts hx⟩
    · exact ⟨_, exec_skp hx, exec_skp hx⟩
  | sknp x =>
    rcases Nat.lt_or_ge 15 (s.reg x).toNat with hx | hx
    · exact ⟨_, exec_sknp_halts hx, exec_sknp_halts hx⟩
    · exact ⟨_, exec_sknp hx, exec_sknp hx⟩
  | drw x y n =>
    by_cases hx : n = 0 ∨ s.i.toNat + n ≤ Config.memSize
    · exact ⟨_, exec_drw hx, exec_drw hx⟩
    · obtain ⟨h0, hx⟩ := not_or.1 hx
      exact ⟨_, exec_drw_halts h0 (Nat.not_le.1 hx), exec_drw_halts h0 (Nat.not_le.1 hx)⟩
  | ldB x =>
    rcases Nat.lt_or_ge (s.i.toNat + 2) Config.memSize with hx | hx
    · exact ⟨_, exec_ldB hx, exec_ldB hx⟩
    · exact ⟨_, exec_ldB_halts hx, exec_ldB_halts hx⟩
  | storeRegs x =>
    rcases Nat.lt_or_ge (s.i.toNat + x.val) Config.memSize with hx | hx
    · exact ⟨_, exec_storeRegs hx, exec_storeRegs hx⟩
    · exact ⟨_, exec_storeRegs_halts hx, exec_storeRegs_halts hx⟩
  | loadRegs x =>
    rcases Nat.lt_or_ge (s.i.toNat + x.val) Config.memSize with hx | hx
    · refine ⟨_, exec_loadRegs hx, (exec_loadRegs (s := s.withRandom bytes d) hx).trans ?_⟩
      rw [setRegsFrom_withRandom]; rfl
    · exact ⟨_, exec_loadRegs_halts hx, exec_loadRegs_halts hx⟩
  | ldVxK x =>
    cases hf : s.firstDown with
    | none => exact ⟨_, exec_ldVxK_waits hf, exec_ldVxK_waits hf⟩
    | some k => exact ⟨_, exec_ldVxK hf, exec_ldVxK hf⟩
  | _ => exact ⟨_, rfl, rfl⟩

/-- Settles O55: the two runs agree but for the provider. -/
theorem randomBytesReachOnlyRnd : Obligations.RandomBytesReachOnlyRnd := by
  intro i s t bytes d hi h
  obtain ⟨u, hu, hv⟩ := exec_withRandom hi s bytes d
  obtain rfl : u = t := by simpa [hu] using h
  exact hv

/-! ## The invariant -/

/-! ### Targets -/

@[simp] theorem zext16_toNat (nnn : Addr12) : (zext16 nnn).toNat = nnn.toNat := by
  have := nnn.isLt
  simp [zext16]; omega

/-- The sum of an offset jump does not wrap (R128). -/
@[simp] theorem offsetTarget_toNat (nnn : Addr12) (v0 : Byte) : (offsetTarget nnn v0).toNat = nnn.toNat + v0.toNat := by
  have := nnn.isLt
  have := v0.isLt
  simp [offsetTarget]; omega

/-- A word that could be fetched from, and the 2 or 4 a step adds to it, stay below the bound of R25. -/
theorem add_le_maxPc {w d : Word} (hw : w.toNat ≤ 0xFFE) (hd : d.toNat ≤ 4) : (w + d).toNat ≤ maxPc := by
  rw [BitVec.toNat_add, Nat.mod_eq_of_lt (by omega), maxPc]; omega

/-! ### Each part of the invariant through an instruction -/

/-- The PC an instruction that does not halt leaves, by its outcome (R120, R129). -/
theorem ExecShape.pcAfter {i : Instr} {s t : State} (hs : ExecShape s t i) : PcAfter i s t := by
  cases i with
  | jp nnn | cls | ldDtVx x | ldStVx x => subst hs; rfl
  | jpV0 nnn => subst hs; exact offsetTarget_toNat nnn _
  | seImm x kk | sneImm x kk | seReg x y | sneReg x y | skp x | sknp x => obtain rfl | rfl := hs; exacts [.inl rfl, .inr rfl]
  | ret => obtain ⟨h0, rfl⟩ := hs; exact ⟨⟨s.sp.val - 1, by omega⟩, Nat.sub_add_cancel h0, rfl⟩
  | ldVxK x => exact hs.symm.imp_left fun ⟨_, h⟩ => h ▸ rfl
  | call nnn | ldImm x kk | addImm x kk | ldReg x y | orReg x y | andReg x y | xorReg x y | ldVxDt x | rnd x kk | ldI nnn
  | addI x | ldF x => obtain ⟨_, rfl⟩ := hs; rfl
  | addReg x y | subReg x y | shr x y | shl x y | subnReg x y => obtain ⟨_, _, -, rfl⟩ := hs; rfl
  | drw x y n => obtain ⟨_, _, rfl⟩ := hs; rfl
  | ldB x | storeRegs x => obtain ⟨_, _, rfl⟩ := hs; rfl
  | loadRegs x => obtain ⟨_, -, rfl⟩ := hs; rfl

/-- From a PC that could be fetched from, and return addresses that could, no outcome passes the bound of R25. -/
theorem PcAfter.le_maxPc {i : Instr} {s t : State} (h : PcAfter i s t) (hpc : s.pc.toNat ≤ 0xFFE)
    (hst : ∀ k, (s.stackEntry k).toNat ≤ 0xFFE) : t.pc.toNat ≤ maxPc := by
  have two : (s.pc + 2).toNat ≤ maxPc := add_le_maxPc hpc (by decide)
  have four : (s.pc + 4).toNat ≤ maxPc := add_le_maxPc hpc (by decide)
  cases i with
  | jp nnn | call nnn =>
    have := nnn.isLt
    rw [show t.pc = zext16 nnn from h, zext16_toNat, maxPc]; omega
  | jpV0 nnn =>
    have := nnn.isLt
    have := (s.reg 0).isLt
    rw [show t.pc.toNat = nnn.toNat + (s.reg 0).toNat from h, maxPc]; omega
  | seImm x kk | sneImm x kk | seReg x y | sneReg x y | skp x | sknp x =>
    exact h.elim (fun e => e ▸ two) (fun e => e ▸ four)
  | ret => obtain ⟨k, -, e⟩ := h; exact e ▸ add_le_maxPc (hst k) (by decide)
  | ldVxK x => exact h.elim (fun e => e ▸ two) (fun e => e ▸ hpc.trans (by decide))
  | _ => exact (show t.pc = s.pc + 2 from h) ▸ two

/-- An instruction leaves the memory alone or stores one block (R66). -/
theorem ExecShape.mem {i : Instr} {s t : State} (hs : ExecShape s t i) :
    t.mem = s.mem ∨ ∃ a bs, t.mem = s.mem.writeAll a bs := by
  cases i with
  | ldB x | storeRegs x => obtain ⟨a, bs, rfl⟩ := hs; exact .inr ⟨a, bs, rfl⟩
  | jp nnn | jpV0 nnn | cls | ldDtVx x | ldStVx x => subst hs; exact .inl rfl
  | seImm x kk | sneImm x kk | seReg x y | sneReg x y | skp x | sknp x => obtain rfl | rfl := hs <;> exact .inl rfl
  | ldVxK x => obtain rfl | ⟨_, rfl⟩ := hs <;> exact .inl rfl
  | ret | call nnn | ldImm x kk | addImm x kk | ldReg x y | orReg x y | andReg x y | xorReg x y | ldVxDt x | rnd x kk
  | ldI nnn | addI x | ldF x => obtain ⟨_, rfl⟩ := hs; exact .inl rfl
  | addReg x y | subReg x y | shr x y | shl x y | subnReg x y => obtain ⟨_, _, -, rfl⟩ := hs; exact .inl rfl
  | drw x y n => obtain ⟨_, _, rfl⟩ := hs; exact .inl rfl
  | loadRegs x =>
    obtain ⟨bs, -, rfl⟩ := hs
    exact .inl (setRegsFrom_mem s 0 bs)

/-- An instruction leaves a stack entry alone or pushes PC there (R27). -/
theorem ExecShape.stackEntry {i : Instr} {s t : State} (hs : ExecShape s t i) (k : Fin 16) :
    t.stackEntry k = s.stackEntry k ∨ t.stackEntry k = s.pc := by
  by_cases hw : Writes i (.stackEntry k)
  · obtain ⟨nnn, rfl⟩ := writes_stackEntry_iff.1 hw
    obtain ⟨_, rfl⟩ := hs
    rw [State.setPc_stackEntry, State.setStack_stackEntry]
    split
    · exact .inr rfl
    · exact .inl rfl
  · exact .inl (hs.frame (.stackEntry k) hw)

/-- No instruction halts with the cause of a load (R32, R271). -/
theorem haltCause_ne_loadTooLarge (i : Instr) : haltCause i ≠ some .loadTooLarge := by
  cases i <;> exact nofun

/-- An instruction that was fetched keeps the invariant. -/
theorem exec_inv {i : Instr} {s t : State} (hpc : s.pc.toNat ≤ 0xFFE) (hs : s.Inv) (h : exec i s = .next t) : t.Inv := by
  obtain ⟨hwf, hle, hst, hrun⟩ := hs
  have hstatus : t.status ≠ .halted .loadTooLarge := by
    rcases exec_status h with e | ⟨c, hc, e⟩
    · rwa [e]
    · rw [e]; rintro ⟨⟩; exact haltCause_ne_loadTooLarge i hc
  rcases exec_cases h with ⟨c, rfl⟩ | hsh
  · exact ⟨hwf, hle, hst, hstatus⟩
  · refine ⟨?_, hsh.pcAfter.le_maxPc hpc hst, fun k => ?_, hstatus⟩
    · obtain e | ⟨a, bs, e⟩ := hsh.mem
      · rwa [e]
      · rw [e]; exact Memory.wf_writeAll hwf a bs
    · obtain e | e := hsh.stackEntry k
      · rw [e]; exact hst k
      · rwa [e]

/-! ### The invariant through a step and through the host's transactions -/

/-- A fetch and the decoder raise the two causes of R63 and R96 only. -/
theorem front_halt_cause {s : State} {c : Cause} (h : s.front = .halt c) : c = .outOfBounds ∨ c = .unknownOpcode := by
  obtain ⟨-, -, hf | ⟨w, -, -, rfl⟩⟩ := front_halt_iff.1 h
  · by_cases hp : s.pc.toNat + 1 < Config.memSize
    · rw [fetch_ok hp] at hf; cases hf
    · rw [fetch_error (Nat.not_lt.1 hp)] at hf; cases hf; exact .inl rfl
  · exact .inr rfl

/-- The `step()` transaction keeps the invariant. -/
theorem stepTransaction_inv {s t : State} (hs : s.Inv) (h : stepTransaction s = .next t) : t.Inv := by
  obtain ⟨-, rfl⟩ | ⟨c, hc, rfl⟩ | ⟨i, hi, he⟩ := stepTransaction_cases h
  · exact hs
  · obtain ⟨hwf, hpc, hst, -⟩ := hs
    refine ⟨hwf, hpc, hst, ?_⟩
    obtain rfl | rfl := front_halt_cause hc <;> exact nofun
  · obtain ⟨-, -, w, hw, -⟩ := front_run_iff.1 hi
    exact exec_inv (pc_of_fetch_ok hw) hs he

/-- A load leaves a state that meets the invariant (R72, R321). -/
theorem loadRom_inv (s : State) (bytes : List Byte) : (s.loadRom bytes).Inv :=
  ⟨Memory.wf_writeAll (resetWith_mem_wf _) _ _, (by decide : (0x200 : Word).toNat ≤ maxPc),
    fun k => by simp [State.loadRom, State.resetWith, State.stackEntry], nofun⟩

/-- Every transaction of the host keeps the invariant (R291). -/
theorem apply_inv (m : HostMove) {s : State} (hs : s.Inv) : (m.apply s).Inv := by
  cases m with
  | load bytes =>
    by_cases hb : bytes.length ≤ Config.maxRom
    · rw [HostMove.apply, load_fits hb]; exact loadRom_inv s bytes
    · rw [HostMove.apply, load_too_large (Nat.not_le.1 hb)]; exact hs
  | tickTimers => exact hs
  | setKeyDown k => rw [HostMove.apply, State.setKeyDown]; split <;> exact hs
  | setKeyUp k => rw [HostMove.apply, State.setKeyUp]; split <;> exact hs

/-- Every interface transaction keeps the invariant (R291). -/
theorem run_inv {x : Transaction} {s t : State} (hs : s.Inv) (h : x.run s = .next t) : t.Inv := by
  cases x with
  | move m => cases h; exact apply_inv m hs
  | step => exact stepTransaction_inv hs h
  | readPixel a b | introspect | tone => cases h; exact hs

/-- A sequence of transactions runs its first one and then the others (R291). -/
theorem runTransactions_cons_next {x : Transaction} {xs : List Transaction} {s t : State} :
    runTransactions (x :: xs) s = .next t ↔ ∃ u, x.run s = .next u ∧ runTransactions xs u = .next t := by
  rw [runTransactions]
  cases x.run s <;> simp

/-- A property that every transaction of a sequence keeps is kept by the sequence (R7). -/
theorem runTransactions_induction {P : State → Prop} {xs : List Transaction}
    (hp : ∀ x ∈ xs, ∀ s t, P s → x.run s = .next t → P t) {s t : State} (hs : P s)
    (h : runTransactions xs s = .next t) : P t := by
  induction xs generalizing s with
  | nil => cases h; exact hs
  | cons x xs ih =>
    obtain ⟨u, hu, ht⟩ := runTransactions_cons_next.1 h
    exact ih (fun y hy => hp y (List.mem_cons_of_mem x hy)) (hp x List.mem_cons_self s u hs hu) ht

/-- Settles O15, by induction on the sequence: each transaction keeps the invariant. -/
theorem transactionsKeepTheInvariant : Obligations.TransactionsKeepTheInvariant := fun _ _ _ hs h =>
  runTransactions_induction (fun _ _ _ _ hu hr => run_inv hu hr) hs h

end Sys2Proof.Machine

namespace Sys2Proof.Machine

/-! ## The invariant through a whole step -/

/-- What the schedule puts before a step keeps the invariant (R7, D27). -/
theorem hostPhase_inv {s : State} (hs : s.Inv) : s.hostPhase.Inv := by
  cases h : s.schedule with
  | nil => rwa [hostPhase_nil h]
  | cons ms rest =>
    rw [hostPhase_cons h]
    exact applyMoves_induction (fun m _ => apply_inv m) ms hs

/-- Settles O14: the scheduled transactions keep the invariant, and so does the step after them. -/
theorem stepKeepsTheInvariant : Obligations.StepKeepsTheInvariant := fun _ _ hs h =>
  stepTransaction_inv (hostPhase_inv hs) h

/-! ## Frames of two runs, and of the keypad transactions -/

section Frames

variable {W : Place → Prop} {s t u : State}

/-- What neither of two runs changes, the two together do not change. -/
theorem OnlyChanges.trans (h : OnlyChanges W s t) (h' : OnlyChanges W t u) : OnlyChanges W s u := fun p hp => by
  cases p <;> exact (h' _ hp).trans (h _ hp)

theorem OnlyChanges.setKeys (h : OnlyChanges W s t) {k : BitVec 16} (hw : W .keys) :
    OnlyChanges W s (t.setKeys k) := fun p hp => by
  cases p with
  | keys => exact absurd hw hp
  | _ => exact h _ hp

/-- A key pressed changes the keypad alone, whatever its index (R283). -/
theorem OnlyChanges.setKeyDown (h : OnlyChanges W s t) {k : Nat} (hw : W .keys) : OnlyChanges W s (t.setKeyDown k) := by
  rw [State.setKeyDown]
  split
  · exact h.setKeys hw
  · exact h

/-- A key released changes the keypad alone, whatever its index (R283). -/
theorem OnlyChanges.setKeyUp (h : OnlyChanges W s t) {k : Nat} (hw : W .keys) : OnlyChanges W s (t.setKeyUp k) := by
  rw [State.setKeyUp]
  split
  · exact h.setKeys hw
  · exact h

end Frames

/-! ## A halted block -/

/-- The places that the transactions other than a load and a step write (R279, R283). -/
abbrev TimersAndKeypad : Place → Prop := fun p => p = .dt ∨ p = .st ∨ p = .keys

/-- The `step()` transaction of a halted block changes nothing (R273). -/
theorem stepTransaction_halted {s : State} {c : Cause} (hl : s.loaded = true) (hs : s.status = .halted c) :
    stepTransaction s = .next s := by
  rw [stepTransaction, front_halted hl hs]

/-- On a halted block every transaction but a load completes and reaches the timers and the keypad alone (R273, R282). -/
theorem run_halted {x : Transaction} {s : State} {c : Cause} (hl : s.loaded = true) (hs : s.status = .halted c)
    (hx : ∀ bytes, x ≠ .move (.load bytes)) : ∃ t, x.run s = .next t ∧ OnlyChanges TimersAndKeypad s t := by
  have h0 := OnlyChanges.refl TimersAndKeypad s
  cases x with
  | move m =>
    refine ⟨_, rfl, ?_⟩
    cases m with
    | load bytes => exact absurd rfl (hx bytes)
    | tickTimers => exact (h0.setDt (.inl rfl)).setSt (.inr (.inl rfl))
    | setKeyDown k => exact h0.setKeyDown (.inr (.inr rfl))
    | setKeyUp k => exact h0.setKeyUp (.inr (.inr rfl))
  | step => exact ⟨s, stepTransaction_halted hl hs, h0⟩
  | readPixel a b | introspect | tone => exact ⟨s, rfl, h0⟩

/-- So does every sequence of such transactions: each leaves the block loaded and halted for the next (R273, R277). -/
theorem runTransactions_halted {xs : List Transaction} {s : State} {c : Cause} (hl : s.loaded = true)
    (hs : s.status = .halted c) (hx : ∀ bytes, Transaction.move (.load bytes) ∉ xs) :
    ∃ t, runTransactions xs s = .next t ∧ OnlyChanges TimersAndKeypad s t := by
  induction xs generalizing s with
  | nil => exact ⟨s, rfl, OnlyChanges.refl _ s⟩
  | cons x xs ih =>
    simp only [List.mem_cons, not_or] at hx
    obtain ⟨u, hu, hsu⟩ := run_halted hl hs fun bytes e => (hx bytes).1 e.symm
    have hloaded : u.loaded = s.loaded := hsu .loaded (by decide)
    have hstatus : u.status = s.status := hsu .status (by decide)
    obtain ⟨t, ht, hut⟩ := ih (hloaded.trans hl) (hstatus.trans hs) fun bytes => (hx bytes).2
    exact ⟨t, runTransactions_cons_next.2 ⟨u, hu, ht⟩, hsu.trans hut⟩

/-- Settles O17: Status is none of the places that may change. -/
theorem haltedBlockStaysHalted : Obligations.HaltedBlockStaysHalted := by
  intro s c xs hl hs hx
  obtain ⟨t, ht, hst⟩ := runTransactions_halted hl hs hx
  exact ⟨t, ht, (hst .status (by decide)).trans hs, hst⟩

/-! ## Canonical memories -/

/-- A cell found is one of the cells. -/
theorem mem_of_lookupCell {a : Nat} {b : Byte} {cs : List Host.Cell} (h : lookupCell a cs = some b) : (a, b) ∈ cs := by
  induction cs with
  | nil => cases h
  | cons c cs ih =>
    rw [lookupCell] at h
    split at h
    · next e => cases h; cases e; exact List.mem_cons_self
    · exact List.mem_cons_of_mem c (ih h)

/-- Among rising cells, each one is found at its address. -/
theorem lookupCell_eq_some_iff {a : Nat} {b : Byte} {cs : List Host.Cell} (h : risingCells cs = true) :
    lookupCell a cs = some b ↔ (a, b) ∈ cs := by
  refine ⟨mem_of_lookupCell, fun hm => ?_⟩
  induction cs with
  | nil => cases hm
  | cons c cs ih =>
    obtain ⟨hc, hr⟩ := risingCells_cons.1 h
    rcases List.mem_cons.1 hm with rfl | hm
    · simp [lookupCell]
    · have hne : c.1 ≠ a := Nat.ne_of_lt (hc _ hm)
      rw [lookupCell, if_neg hne]
      exact ih hr hm

theorem pairwise_of_risingCells {cs : List Host.Cell} (h : risingCells cs = true) :
    cs.Pairwise (fun c d => c.1 < d.1) := by
  induction cs with
  | nil => exact .nil
  | cons c cs ih =>
    obtain ⟨hc, hr⟩ := risingCells_cons.1 h
    exact .cons hc (ih hr)

/-- A canonical memory has a cell for a byte exactly where it reads that byte and would not unlisted (log 21). -/
theorem Memory.mem_cells_iff {m : Memory} (h : m.wf = true) {a : Nat} {b : Byte} :
    (a, b) ∈ m.cells ↔ m.read a = b ∧ b ≠ m.unlisted a := by
  obtain ⟨hr, hc⟩ := wf_iff.1 h
  rw [← lookupCell_eq_some_iff hr]
  cases hl : lookupCell a m.cells with
  | none => simp +contextual [Memory.read, hl]
  | some d =>
    have hd : d ≠ m.unlisted a := (hc _ (mem_of_lookupCell hl)).2
    simp only [Memory.read, hl, Option.some_inj, Option.getD_some]
    exact ⟨fun e => ⟨e, e ▸ hd⟩, And.left⟩

/-- Settles O16: both lists hold the cells that the reads give, and rising lists of the same cells are equal. -/
theorem memoriesReadingAlikeAreEqual : Obligations.MemoriesReadingAlikeAreEqual := by
  rintro ⟨g, cs⟩ ⟨_, cs'⟩ h h' rfl hread
  have hmem : ∀ c : Host.Cell, c ∈ cs ↔ c ∈ cs' := fun ⟨a, b⟩ => by
    have hl := Memory.mem_cells_iff h (a := a) (b := b)
    have hl' := Memory.mem_cells_iff h' (a := a) (b := b)
    rw [← hread a] at hl'
    exact hl.trans hl'.symm
  obtain ⟨hr, -⟩ := Memory.wf_iff.1 h
  obtain ⟨hr', -⟩ := Memory.wf_iff.1 h'
  have hcells : cs = cs' := (pairwise_of_risingCells hr).eq_of_mem_iff (pairwise_of_risingCells hr') hmem
  rw [hcells]

/-! ## CALL and RET -/

/-- Settles O22: the push has room exactly below 16 entries, and writes the entry SP named before it. -/
theorem callPushesItsOwnAddress : Obligations.CallPushesItsOwnAddress := by
  refine ⟨encoded_of_row (k := 3) (by decide), fun nnn s => ⟨fun k hk => ?_, exec_call_halts⟩⟩
  have hsp : s.sp.val < 16 := hk ▸ k.isLt
  obtain rfl : k = ⟨s.sp.val, hsp⟩ := Fin.ext hk
  refine ⟨_, exec_call hsp, zext16_toNat nnn, rfl, ?_, ((OnlyChanges.refl _ s).setStack ?_ ?_).setPc ?_⟩
  · rw [State.setPc_stackEntry, State.setStack_stackEntry, if_pos rfl]
  · exact .inr (.inr rfl)
  · exact .inr (.inl rfl)
  · exact .inl rfl

/-- Settles O23: the pop has an entry exactly above 0, and moves SP alone. -/
theorem retPopsAndAddsTwo : Obligations.RetPopsAndAddsTwo := by
  refine ⟨encoded_of_row (k := 1) (by decide), fun s => ⟨fun k hk => ?_, exec_ret_halts⟩⟩
  have hsp : 0 < s.sp.val := by omega
  have htop : (⟨s.sp.val - 1, by omega⟩ : Fin 16) = k := Fin.ext (Nat.sub_eq_of_eq_add hk.symm)
  refine ⟨_, exec_ret hsp, ?_, congrArg Fin.val htop, ((OnlyChanges.refl _ s).setSp (.inr rfl)).setPc (.inl rfl)⟩
  rw [State.setPc_pc, htop]

/-! ## The keypad transactions -/

/-- Every key after one is pressed (R283). -/
theorem setKeyDown_keyDown (s : State) {k : Nat} (hk : k < 16) (j : Nat) :
    (s.setKeyDown k).keyDown j = (s.keyDown j || decide (j = k)) := by
  rw [State.setKeyDown, if_pos hk]
  simp [State.keyDown, BitVec.getLsbD_twoPow, hk, eq_comm]

/-- Every key after one is released (R283). -/
theorem setKeyUp_keyDown (s : State) {k : Nat} (hk : k < 16) (j : Nat) :
    (s.setKeyUp k).keyDown j = (s.keyDown j && decide (j ≠ k)) := by
  rw [State.setKeyUp, if_pos hk]
  by_cases hj : j < 16
  · simp [State.keyDown, hj, eq_comm]
  · simp [State.keyDown, Nat.not_lt.1 hj]

/-- Of two key masks set, the second stays (R30). -/
@[simp] theorem State.setKeys_setKeys (s : State) (k k' : BitVec 16) : (s.setKeys k).setKeys k' = s.setKeys k' := rfl

/-- A key already pressed stays pressed (R283). -/
theorem setKeyDown_setKeyDown (s : State) (k : Nat) : (s.setKeyDown k).setKeyDown k = s.setKeyDown k := by
  by_cases hk : k < 16
  · simp [State.setKeyDown, hk, BitVec.or_assoc]
  · simp [State.setKeyDown, hk]

/-- A key already released stays released (R283). -/
theorem setKeyUp_setKeyUp (s : State) (k : Nat) : (s.setKeyUp k).setKeyUp k = s.setKeyUp k := by
  by_cases hk : k < 16
  · simp [State.setKeyUp, hk, BitVec.and_assoc]
  · simp [State.setKeyUp, hk]

/-- Settles O50: bit by bit, and an index from 16 on meets neither transaction's bound. -/
theorem keyTransactionsSetOneBit : Obligations.KeyTransactionsSetOneBit := by
  refine fun s k => ⟨fun hk => ⟨setKeyDown_keyDown s hk, setKeyUp_keyDown s hk, ?_, ?_, ?_, ?_⟩, fun hk => ?_⟩
  · exact setKeyDown_setKeyDown s k
  · exact setKeyUp_setKeyUp s k
  · exact (OnlyChanges.refl _ s).setKeyDown rfl
  · exact (OnlyChanges.refl _ s).setKeyUp rfl
  · exact ⟨if_neg (Nat.not_lt.2 hk), if_neg (Nat.not_lt.2 hk)⟩

/-! ## Stale stack entries and the sound timer -/

/-- The state with other stack entries and another ST (R26, R29). -/
def State.withStackAndSt (s : State) (v : Vector Word 16) (b : Byte) : State := { s with stack := v, st := b }

/-- What an instruction makes of stack entries `v`: CALL stores PC at SP, where there is room (R27). -/
def stackAfter (i : Instr) (s : State) (v : Vector Word 16) : Vector Word 16 :=
  match i with
  | .call _ => if h : s.sp.val < 16 then v.set s.sp.val s.pc else v
  | _ => v

/-- What an instruction makes of the sound timer `b`: LD ST,Vx writes a register's value over it (R245). -/
def stAfter (i : Instr) (s : State) (b : Byte) : Byte :=
  match i with
  | .ldStVx x => s.reg x
  | _ => b

theorem setRegsFrom_withStackAndSt (s : State) (v : Vector Word 16) (b : Byte) (k : Nat) (bs : List Byte) :
    (s.withStackAndSt v b).setRegsFrom k bs = (s.setRegsFrom k bs).withStackAndSt v b := by
  induction bs generalizing s k with
  | nil => rfl
  | cons b bs ih =>
    rw [State.setRegsFrom, State.setRegsFrom]
    split
    · exact ih (s.setReg _ b) (k + 1)
    · rfl

/-- Two states that differ in ST and in stack entries at SP and above alone take the same step: no check and no value read
depends on what differs, and RET reads the entry below SP (R28, R29). -/
theorem exec_withStackAndSt (i : Instr) {s : State} {v : Vector Word 16} (b : Byte)
    (hv : ∀ k : Fin 16, k.val < s.sp.val → v[k.val] = s.stackEntry k) :
    ∃ t, exec i s = .next t ∧
      exec i (s.withStackAndSt v b) = .next (t.withStackAndSt (stackAfter i s v) (stAfter i s b)) := by
  cases i with
  | ret =>
    rcases Nat.eq_zero_or_pos s.sp.val with hx | hx
    · exact ⟨_, exec_ret_halts hx, exec_ret_halts hx⟩
    · have htop : (s.withStackAndSt v b).stackEntry ⟨(s.withStackAndSt v b).sp.val - 1, by omega⟩ =
          s.stackEntry ⟨s.sp.val - 1, by omega⟩ := hv ⟨s.sp.val - 1, by omega⟩ (Nat.sub_lt hx Nat.one_pos)
      refine ⟨_, exec_ret hx, (exec_ret (s := s.withStackAndSt v b) hx).trans ?_⟩
      rw [htop]; rfl
  | call nnn =>
    by_cases hx : s.sp.val < 16
    · refine ⟨_, exec_call hx, (exec_call (s := s.withStackAndSt v b) hx).trans ?_⟩
      rw [stackAfter, dif_pos hx]; rfl
    · have hfull : s.sp.val = 16 := by have := s.sp.isLt; omega
      refine ⟨_, exec_call_halts hfull, (exec_call_halts (s := s.withStackAndSt v b) hfull).trans ?_⟩
      rw [stackAfter, dif_neg hx]; rfl
  | skp x =>
    rcases Nat.lt_or_ge 15 (s.reg x).toNat with hx | hx
    · exact ⟨_, exec_skp_halts hx, exec_skp_halts hx⟩
    · exact ⟨_, exec_skp hx, exec_skp hx⟩
  | sknp x =>
    rcases Nat.lt_or_ge 15 (s.reg x).toNat with hx | hx
    · exact ⟨_, exec_sknp_halts hx, exec_sknp_halts hx⟩
    · exact ⟨_, exec_sknp hx, exec_sknp hx⟩
  | drw x y n =>
    by_cases hx : n = 0 ∨ s.i.toNat + n ≤ Config.memSize
    · exact ⟨_, exec_drw hx, exec_drw hx⟩
    · obtain ⟨h0, hx⟩ := not_or.1 hx
      exact ⟨_, exec_drw_halts h0 (Nat.not_le.1 hx), exec_drw_halts h0 (Nat.not_le.1 hx)⟩
  | ldB x =>
    rcases Nat.lt_or_ge (s.i.toNat + 2) Config.memSize with hx | hx
    · exact ⟨_, exec_ldB hx, exec_ldB hx⟩
    · exact ⟨_, exec_ldB_halts hx, exec_ldB_halts hx⟩
  | storeRegs x =>
    rcases Nat.lt_or_ge (s.i.toNat + x.val) Config.memSize with hx | hx
    · exact ⟨_, exec_storeRegs hx, exec_storeRegs hx⟩
    · exact ⟨_, exec_storeRegs_halts hx, exec_storeRegs_halts hx⟩
  | loadRegs x =>
    rcases Nat.lt_or_ge (s.i.toNat + x.val) Config.memSize with hx | hx
    · refine ⟨_, exec_loadRegs hx, (exec_loadRegs (s := s.withStackAndSt v b) hx).trans ?_⟩
      rw [setRegsFrom_withStackAndSt]; rfl
    · exact ⟨_, exec_loadRegs_halts hx, exec_loadRegs_halts hx⟩
  | ldVxK x =>
    cases hf : s.firstDown with
    | none => exact ⟨_, exec_ldVxK_waits hf, exec_ldVxK_waits hf⟩
    | some k => exact ⟨_, exec_ldVxK hf, exec_ldVxK hf⟩
  | _ => exact ⟨_, rfl, rfl⟩

/-- The run with the other stack and ST goes where the first run went, with its own stack and ST. -/
theorem exec_withStackAndSt_of_exec {i : Instr} {s t : State} {v : Vector Word 16} {b : Byte} (h : exec i s = .next t)
    (hv : ∀ k : Fin 16, k.val < s.sp.val → v[k.val] = s.stackEntry k) :
    exec i (s.withStackAndSt v b) = .next (t.withStackAndSt (stackAfter i s v) (stAfter i s b)) := by
  obtain ⟨u, hu, hvu⟩ := exec_withStackAndSt i b hv
  obtain rfl : u = t := by simpa [hu] using h
  exact hvu

/-- The stack and ST an instruction leaves: where nothing differs, the two runs are one. -/
theorem exec_stack_st {i : Instr} {s t : State} (h : exec i s = .next t) :
    t.stack = stackAfter i s s.stack ∧ t.st = stAfter i s s.st := by
  have ht : exec i s = .next (t.withStackAndSt (stackAfter i s s.stack) (stAfter i s s.st)) :=
    exec_withStackAndSt_of_exec h fun _ _ => rfl
  have heq : t = t.withStackAndSt (stackAfter i s s.stack) (stAfter i s s.st) := by simpa [h] using ht
  exact ⟨congrArg State.stack heq, congrArg State.st heq⟩

/-- An entry below SP after an instruction was below it before, or is the one a CALL pushed (R27). -/
theorem below_sp_cases {i : Instr} {s t : State} (h : exec i s = .next t) {k : Fin 16} (hk : k.val < t.sp.val) :
    k.val < s.sp.val ∨ k.val = s.sp.val ∧ ∃ nnn, i = .call nnn := by
  rcases exec_cases h with ⟨c, rfl⟩ | hs
  · exact .inl hk
  by_cases hw : Writes i .sp
  · obtain rfl | ⟨nnn, rfl⟩ := writes_sp_iff.1 hw
    · obtain ⟨h0, rfl⟩ := hs
      exact .inl (Nat.lt_of_lt_of_le hk (Nat.sub_le s.sp.val 1))
    · obtain ⟨h16, rfl⟩ := hs
      exact (Nat.lt_succ_iff_lt_or_eq.1 hk).imp_right fun e => ⟨e, nnn, rfl⟩
  · have hsp : t.sp = s.sp := hs.frame .sp hw
    exact .inl (hsp ▸ hk)

/-- An entry that agrees before an instruction agrees after it. -/
theorem stackAfter_getElem_congr (i : Instr) (s : State) {v w : Vector Word 16} {k : Fin 16}
    (h : v[k.val] = w[k.val]) : (stackAfter i s v)[k.val] = (stackAfter i s w)[k.val] := by
  cases i with
  | call nnn =>
    rw [stackAfter, stackAfter]
    split
    · simp [Vector.getElem_set, h]
    · exact h
  | _ => exact h

/-- Settles O54: the second run's stack agrees below the new SP, at an entry that agreed before or that CALL pushed. -/
theorem staleStackEntriesAffectNothing : Obligations.StaleStackEntriesAffectNothing := by
  intro i s t v hv h
  obtain ⟨hstack, hst⟩ := exec_stack_st h
  refine ⟨t.withStackAndSt (stackAfter i s v) (stAfter i s s.st), exec_withStackAndSt_of_exec h hv, ?_, fun k hk => ?_⟩
  · rw [← hst]; rfl
  · change (stackAfter i s v)[k.val] = t.stack[k.val]
    simp only [hstack]
    obtain hlt | ⟨hpush, nnn, rfl⟩ := below_sp_cases h hk
    · exact stackAfter_getElem_congr i s (hv k hlt)
    · simp [stackAfter, ← hpush]

/-- Settles O56: the second run's ST is its own, or the register LD ST,Vx wrote in both. -/
theorem soundTimerIsNeverRead : Obligations.SoundTimerIsNeverRead := by
  intro i s t b h
  obtain ⟨hstack, hst⟩ := exec_stack_st h
  refine ⟨t.withStackAndSt (stackAfter i s s.stack) (stAfter i s b),
    exec_withStackAndSt_of_exec h fun _ _ => rfl, ?_, ?_⟩
  · rw [← hstack]; rfl
  · cases i with
    | ldStVx x => right; rw [← hstack]; exact congrArg (t.withStackAndSt t.stack) hst.symm
    | _ => exact .inl rfl

end Sys2Proof.Machine

namespace Sys2Proof.Machine

/-! ## Loads, reset, and the checks of a step -/

/-! ### The fetched word -/

/-- The word of two bytes as a number, the first byte the high one (R63, R64). -/
theorem wordOfBytes_toNat (hi lo : Byte) : (wordOfBytes hi lo).toNat = hi.toNat * 256 + lo.toNat := by
  have hlo := lo.isLt
  rw [wordOfBytes, BitVec.toNat_append, ← Nat.shiftLeft_add_eq_or_of_lt hlo, Nat.shiftLeft_eq]

/-- Settles O7: the two sides of the fetch bound, and the word's value. -/
theorem fetchReadsBigEndianWord : Obligations.FetchReadsBigEndianWord := fun _ =>
  ⟨fetch_error, fun h => ⟨_, fetch_ok h, wordOfBytes_toNat _ _⟩⟩

/-- Settles O41: the block store reads back as the registers, and the fetch is two such reads. -/
theorem storedCodeIsFetchedNext : Obligations.StoredCodeIsFetchedNext := by
  intro x j k s t hwf hb hkj hkx h hpc
  obtain ⟨u, hu, -, hread, -⟩ := (blockStoreWritesRegisters.2 x s hwf).1 hb
  obtain rfl : u = t := by simpa [hu] using h
  have hkx' : k.val ≤ x.val := hkx
  have hjx : j ≤ x := Fin.le_def.2 (by omega)
  have hnext : u.pc.toNat + 1 = s.i.toNat + k.val := by omega
  have hin : u.pc.toNat + 1 < 4096 := by omega
  rw [fetch_ok hin, hnext, hpc, hread j hjx, hread k hkx]

/-! ### The checks of a step -/

/-- With nothing scheduled, a step is the `step()` transaction (R120). -/
theorem step_of_schedule_nil {s : State} (h : s.schedule = []) : step s = stepTransaction s := by
  rw [step, hostPhase_nil h]

/-- A halt raised by the front end is a next state that differs in Status alone (R272). -/
theorem stepTransaction_of_front_halt {s : State} {c : Cause} (h : s.front = .halt c) :
    stepTransaction s = .next (s.setStatus (.halted c)) := by
  simp [stepTransaction, h]

/-- The answer of a step that ends in Halted (R272, R273). -/
theorem stepResult_halted {s : State} {c : Cause} (h : s.status = .halted c) : s.stepResult = .err c := by
  rw [State.stepResult, h]

/-- Settles O6: the front end of R274, one clause per check. -/
theorem stepChecksBeforeDecoding : Obligations.StepChecksBeforeDecoding := by
  intro s hsch hl
  rw [step_of_schedule_nil hsch]
  have halts {c : Cause} (h : s.front = .halt c) :
      ∃ t, stepTransaction s = .next t ∧ t = { s with status := .halted c } ∧ t.stepResult = .err c :=
    ⟨_, stepTransaction_of_front_halt h, rfl, rfl⟩
  refine ⟨fun c hc => ⟨stepTransaction_halted hl hc, stepResult_halted hc⟩, fun hr hb => ?_, fun hr hb hd => ?_⟩
  · exact halts (front_halt_iff.2 ⟨hl, hr, .inl (fetch_error hb)⟩)
  · exact halts (front_halt_iff.2 ⟨hl, hr, .inr ⟨_, fetch_ok hb, hd, rfl⟩⟩)

/-! ### Reset and load -/

/-- Below the glyph size, memory right after reset reads as the glyph table (R69, R71). -/
theorem resetWith_read_glyph (g : Vector Byte Config.glyphSize) {a : Nat} (h : a < Config.glyphSize) :
    (State.resetWith g).mem.read a = g[a] := dif_pos h

/-- Above the glyph table, memory right after reset reads as zero (R69, D13). -/
theorem resetWith_read_zero (g : Vector Byte Config.glyphSize) {a : Nat} (h : Config.glyphSize ≤ a) :
    (State.resetWith g).mem.read a = 0 := dif_neg (Nat.not_lt.2 h)

@[simp] theorem resetWith_reg (g : Vector Byte Config.glyphSize) (k : RegIdx) : (State.resetWith g).reg k = 0 := by
  simp [State.resetWith, State.reg]

@[simp] theorem resetWith_stackEntry (g : Vector Byte Config.glyphSize) (k : Fin 16) :
    (State.resetWith g).stackEntry k = 0 := by
  simp [State.resetWith, State.stackEntry]

/-- Settles O11: memory lists nothing, so it reads as unlisted; the vectors are replicated zeros. -/
theorem resetLeavesTheseValues : Obligations.ResetLeavesTheseValues := fun g =>
  ⟨resetWith_reg g, rfl, rfl, rfl, resetWith_stackEntry g, rfl, rfl, rfl, pixel_blank, rfl,
    fun _ => resetWith_read_glyph g, fun _ => resetWith_read_zero g⟩

/-- Outside the ROM, memory after a load reads as after reset (R72, R321). -/
theorem loadRom_read_outside (s : State) {bytes : List Byte} {a : Nat}
    (h : a < Config.progBase ∨ Config.progBase + bytes.length ≤ a) :
    (s.loadRom bytes).mem.read a = (State.resetWith s.mem.glyphs).mem.read a := by
  rw [loadRom_mem, Memory.read_writeAll_outside _ h]

/-- The ROM's bytes are in memory from PROG_BASE upward (R72). -/
theorem loadRom_read_rom (s : State) {bytes : List Byte} (hb : bytes.length ≤ Config.maxRom) {k : Nat}
    (hk : k < bytes.length) : (s.loadRom bytes).mem.read (Config.progBase + k) = bytes[k] := by
  rw [loadRom_mem]
  exact Memory.read_writeAll_inside (resetWith_mem_wf _) (Nat.add_le_of_le_sub' (by decide) hb) hk

/-- The places where a load may differ from reset: what the host keeps outside the block, and the ROM's bytes
(R72; log 19). -/
abbrev HostInputsAndRom (bytes : List Byte) : Place → Prop := fun p =>
  p = .provided ∨ p = .draws ∨ p = .schedule ∨ ∃ k, k < bytes.length ∧ p = .byte (Config.progBase + k)

/-- Everything else a load leaves as reset does (R321). -/
theorem loadRom_frame (s : State) (bytes : List Byte) :
    OnlyChanges (HostInputsAndRom bytes) (State.resetWith s.mem.glyphs) (s.loadRom bytes) := fun p hp => by
  have hmem := (OnlyChanges.refl (HostInputsAndRom bytes) (State.resetWith s.mem.glyphs)).writeAll
    (a := Config.progBase) (bs := bytes) fun k hk => .inr (.inr (.inr ⟨k, hk, rfl⟩))
  cases p with
  | provided | draws | schedule => simp at hp
  | _ => exact hmem _ hp

/-- What a load answers: Ok where the ROM fits (R72). -/
theorem loadResult_fits {bytes : List Byte} (h : bytes.length ≤ Config.maxRom) : loadResult bytes = .ok := by
  simp [loadResult, romFits, h]

/-- What a load answers where the ROM is too large (R72). -/
theorem loadResult_too_large {bytes : List Byte} (h : Config.maxRom < bytes.length) :
    loadResult bytes = .err .loadTooLarge := by
  simp [loadResult, romFits, Nat.not_le.2 h]

/-- Settles O12: the ROM is the block written over the reset memory, and the glyph table ends before it. -/
theorem loadPutsTableAndRomInMemory : Obligations.LoadPutsTableAndRomInMemory := by
  refine fun s bytes => ⟨fun hb => ?_, fun hb => ⟨load_too_large hb, loadResult_too_large hb⟩⟩
  rw [load_fits hb]
  refine ⟨loadResult_fits hb, fun a ha => ?_, fun k hk => loadRom_read_rom s hb hk, fun a ha hout => ?_, rfl, rfl, rfl,
    loadRom_frame s bytes⟩
  · exact (loadRom_read_outside s (.inl (Nat.lt_trans ha (by decide)))).trans (resetWith_read_glyph _ ha)
  · exact (loadRom_read_outside s hout).trans (resetWith_read_zero _ ha)

end Sys2Proof.Machine

namespace Sys2Proof

/-! ## The row of an instruction -/

/-- The constructors stand in the order of the table's rows (R94): row `k` builds the `k`-th constructor. -/
theorem ctorIdx_of_rows (w : Word) : opcodeTable.map (fun r => (r.build w).ctorIdx) = List.range 34 := rfl

theorem ctorIdx_build {k : Nat} (hk : k < opcodeTable.length) (w : Word) : (opcodeTable[k].build w).ctorIdx = k := by
  have h := List.getElem_of_eq (ctorIdx_of_rows w) (i := k) (by simpa using hk)
  rwa [List.getElem_map, List.getElem_range] at h

theorem ctorIdx_lt (i : Instr) : i.ctorIdx < opcodeTable.length := by cases i <;> exact Nat.le_of_ble_eq_true rfl

/-- The instruction's own row of the opcode table (R94). -/
def Instr.row (i : Instr) : Row := opcodeTable[i.ctorIdx]'(ctorIdx_lt i)

theorem row_build {r : Row} (hr : r ∈ opcodeTable) (w : Word) : (r.build w).row = r := by
  obtain ⟨k, hk, rfl⟩ := List.mem_iff_getElem.1 hr
  simp only [Instr.row, ctorIdx_build hk]

/-- A word decodes to an instruction exactly when it has the fixed bits of that instruction's row and the operands in its
fields (R95). -/
theorem decode_eq_instr_iff {w : Word} {i : Instr} :
    decode w = .instr i ↔ w &&& i.row.mask = i.row.pattern ∧ i.row.build w = i := by
  constructor
  · intro h
    obtain ⟨r, hr, hsel, rfl⟩ := row_of_decode h
    rw [row_build hr]
    exact ⟨by simpa [Row.selects] using hsel, rfl⟩
  · rintro ⟨hbits, hbuild⟩
    exact (decode_of_getElem (ctorIdx_lt i) hbits).trans (congrArg Decoded.instr hbuild)

/-! ## Decoding an encoded instruction -/

/-- The encoder writes the fixed bits of the instruction's own row, format by format (R92, R94). -/
theorem encode_fixedBits (i : Instr) : encode i &&& i.row.mask = i.row.pattern := by
  cases i with
  | cls | ret => decide
  | jp nnn | call nnn | ldI nnn | jpV0 nnn => exact formatNNN_and _ nnn
  | seImm x kk | sneImm x kk | ldImm x kk | addImm x kk | rnd x kk => exact formatXKK_and _ x kk
  | drw x y n => exact formatXYN_and _ x y n
  | seReg x y | ldReg x y | orReg x y | andReg x y | xorReg x y | addReg x y | subReg x y | shr x y | subnReg x y
  | shl x y | sneReg x y => exact formatXY_and _ x y _
  | skp x | sknp x | ldVxDt x | ldVxK x | ldDtVx x | ldStVx x | addI x | ldF x | ldB x | storeRegs x | loadRegs x =>
    exact formatX_and _ x _

@[simp] theorem xField_formatXYN (op : BitVec 4) (x y : RegIdx) (n : Nat) : xField (formatXYN op x y n) = x :=
  xField_formatXY op x y _

@[simp] theorem yField_formatXYN (op : BitVec 4) (x y : RegIdx) (n : Nat) : yField (formatXYN op x y n) = y :=
  yField_formatXY op x y _

/-- The row reads back the operands the encoder wrote (R91, R92). -/
theorem build_encode {i : Instr} (hi : i.wellFormed = true) : i.row.build (encode i) = i := by
  cases i with
  | cls | ret => rfl
  | jp nnn | call nnn | ldI nnn | jpV0 nnn => exact congrArg _ (nnnField_formatNNN _ nnn)
  | seImm x kk | sneImm x kk | ldImm x kk | addImm x kk | rnd x kk =>
    exact congrArg₂ _ (xField_formatXKK _ x kk) (kkField_formatXKK _ x kk)
  | drw x y n =>
    have hn : n ≤ 15 := of_decide_eq_true hi
    change Instr.drw (xField (formatXYN _ x y n)) (yField (formatXYN _ x y n)) (nField (formatXYN _ x y n)) = _
    rw [xField_formatXYN, yField_formatXYN, nField_formatXYN _ _ _ hn]
  | seReg x y | ldReg x y | orReg x y | andReg x y | xorReg x y | addReg x y | subReg x y | shr x y | subnReg x y
  | shl x y | sneReg x y => exact congrArg₂ _ (xField_formatXY _ x y _) (yField_formatXY _ x y _)
  | skp x | sknp x | ldVxDt x | ldVxK x | ldDtVx x | ldStVx x | addI x | ldF x | ldB x | storeRegs x | loadRegs x =>
    exact congrArg _ (xField_formatX _ x _)

theorem decode_encode {i : Instr} (hi : i.wellFormed = true) : decode (encode i) = .instr i :=
  decode_eq_instr_iff.2 ⟨encode_fixedBits i, build_encode hi⟩

/-- Settles O2: the encoder's word has the row's fixed bits and the operands in its fields, and its two bytes make it up
again. -/
theorem decodeOfEncodedInstruction : Obligations.DecodeOfEncodedInstruction := by
  refine fun i hi => ⟨decode_encode hi, fun rest => ?_⟩
  simp [encodeBytes, decodeBytes, wordOfBytes_split, decode_encode hi]

/-! ## Fields, formats and masks as numbers -/

/-- The op field w[15:12] (R91), which the decoder reads through the masks alone. -/
def opField (w : Word) : BitVec 4 := w.extractLsb' 12 4

@[simp] theorem opField_toNat (w : Word) : (opField w).toNat = w.toNat / 4096 := by
  rw [opField, BitVec.extractLsb'_toNat, Nat.shiftRight_eq_div_pow]; omega

@[simp] theorem xField_val (w : Word) : (xField w).val = w.toNat / 256 % 16 := by
  simp [xField, Nat.shiftRight_eq_div_pow]

@[simp] theorem yField_val (w : Word) : (yField w).val = w.toNat / 16 % 16 := by
  simp [yField, Nat.shiftRight_eq_div_pow]

theorem nField_eq (w : Word) : nField w = w.toNat % 16 := by
  simp [nField]

@[simp] theorem kkField_toNat (w : Word) : (kkField w).toNat = w.toNat % 256 := by
  simp [kkField]

@[simp] theorem nnnField_toNat (w : Word) : (nnnField w).toNat = w.toNat % 4096 := by
  simp [nnnField]

theorem append_toNat {m n : Nat} (a : BitVec m) (b : BitVec n) : (a ++ b).toNat = a.toNat * 2 ^ n + b.toNat := by
  rw [BitVec.toNat_append, ← Nat.shiftLeft_add_eq_or_of_lt b.isLt, Nat.shiftLeft_eq]

/-! ### A word is put together from its fields, in every format (R92) -/

theorem formatNNN_fields (w : Word) : formatNNN (opField w) (nnnField w) = w := by
  apply BitVec.eq_of_toNat_eq
  rw [formatNNN, append_toNat, opField_toNat, nnnField_toNat]
  omega

theorem formatX_fields (w : Word) : formatX (opField w) (xField w) (kkField w) = w := by
  apply BitVec.eq_of_toNat_eq
  simp only [formatX, append_toNat, opField_toNat, BitVec.toNat_ofFin, xField_val, kkField_toNat]
  omega

theorem formatXKK_fields (w : Word) : formatXKK (opField w) (xField w) (kkField w) = w := formatX_fields w

theorem formatXYN_fields (w : Word) : formatXYN (opField w) (xField w) (yField w) (nField w) = w := by
  apply BitVec.eq_of_toNat_eq
  simp only [formatXYN, formatXY, append_toNat, opField_toNat, BitVec.toNat_ofFin, xField_val, yField_val, nField_eq,
    BitVec.toNat_ofNat]
  omega

/-! ### The bits a format fixes (R92) -/

/-- The formats NNN, XKK and XYN fix the op. -/
theorem and_F000 (w : Word) : w &&& 0xF000#16 = (opField w ++ 0#12 : BitVec (4 + 12)) := by
  simpa only [formatNNN_fields] using formatNNN_and (opField w) (nnnField w)

/-- The format XY fixes the op and the 4-bit function code. -/
theorem and_F00F (w : Word) : w &&& 0xF00F#16 = (opField w ++ 0#8 ++ BitVec.ofNat 4 (nField w) : BitVec (4 + 8 + 4)) := by
  rw [← formatXY_and (opField w) (xField w) (yField w), ← formatXYN, formatXYN_fields]

/-- The format X fixes the op and the 8-bit function code. -/
theorem and_F0FF (w : Word) : w &&& 0xF0FF#16 = (opField w ++ 0#4 ++ kkField w : BitVec (4 + 4 + 8)) := by
  simpa only [formatX_fields] using formatX_and (opField w) (xField w) (kkField w)

/-- The words of CLS and RET are fixed in every bit. -/
theorem and_FFFF (w : Word) : w &&& 0xFFFF#16 = w := BitVec.and_allOnes

theorem and_FFFF_eq_iff {w p : Word} : w &&& 0xFFFF#16 = p ↔ w.toNat = p.toNat := by
  rw [and_FFFF, BitVec.toNat_inj]

theorem and_F000_eq_iff {w p : Word} : w &&& 0xF000#16 = p ↔ w.toNat / 4096 * 4096 = p.toNat := by
  rw [and_F000, ← BitVec.toNat_inj, append_toNat, opField_toNat, BitVec.toNat_zero]
  omega

theorem and_F00F_eq_iff {w p : Word} : w &&& 0xF00F#16 = p ↔ w.toNat / 4096 * 4096 + w.toNat % 16 = p.toNat := by
  rw [and_F00F, ← BitVec.toNat_inj, append_toNat, append_toNat, opField_toNat, nField_eq, BitVec.toNat_zero,
    BitVec.toNat_ofNat]
  omega

theorem and_F0FF_eq_iff {w p : Word} : w &&& 0xF0FF#16 = p ↔ w.toNat / 4096 * 4096 + w.toNat % 256 = p.toNat := by
  rw [and_F0FF, ← BitVec.toNat_inj, append_toNat, append_toNat, opField_toNat, kkField_toNat, BitVec.toNat_zero]
  omega

/-! ## Encoding a decoded word -/

section FixedBits

variable {w : Word} {op : BitVec 4}

theorem opField_eq_of_fixedBits (h : w &&& 0xF000#16 = (op ++ 0#12 : BitVec (4 + 12))) : opField w = op :=
  (BitVec.append_left_inj _).1 ((and_F000 w).symm.trans h)

theorem formatNNN_of_fixedBits (h : w &&& 0xF000#16 = (op ++ 0#12 : BitVec (4 + 12))) :
    formatNNN op (nnnField w) = w := by
  rw [← opField_eq_of_fixedBits h, formatNNN_fields]

theorem formatXKK_of_fixedBits (h : w &&& 0xF000#16 = (op ++ 0#12 : BitVec (4 + 12))) :
    formatXKK op (xField w) (kkField w) = w := by
  rw [← opField_eq_of_fixedBits h, formatXKK_fields]

theorem formatXYN_of_fixedBits (h : w &&& 0xF000#16 = (op ++ 0#12 : BitVec (4 + 12))) :
    formatXYN op (xField w) (yField w) (nField w) = w := by
  rw [← opField_eq_of_fixedBits h, formatXYN_fields]

theorem formatXY_of_fixedBits {sub : BitVec 4} (h : w &&& 0xF00F#16 = (op ++ 0#8 ++ sub : BitVec (4 + 8 + 4))) :
    formatXY op (xField w) (yField w) sub = w := by
  rw [and_F00F_eq_iff, append_toNat, append_toNat, BitVec.toNat_zero] at h
  have hlt := sub.isLt
  have hop : opField w = op := BitVec.eq_of_toNat_eq (by rw [opField_toNat]; omega)
  have hsub : BitVec.ofNat 4 (nField w) = sub := BitVec.eq_of_toNat_eq (by rw [nField_eq, BitVec.toNat_ofNat]; omega)
  rw [← hop, ← hsub, ← formatXYN, formatXYN_fields]

theorem formatX_of_fixedBits {sub : Byte} (h : w &&& 0xF0FF#16 = (op ++ 0#4 ++ sub : BitVec (4 + 4 + 8))) :
    formatX op (xField w) sub = w := by
  rw [and_F0FF_eq_iff, append_toNat, append_toNat, BitVec.toNat_zero] at h
  have hop : opField w = op := BitVec.eq_of_toNat_eq (by rw [opField_toNat]; omega)
  have hsub : kkField w = sub := BitVec.eq_of_toNat_eq (by rw [kkField_toNat]; omega)
  rw [← hop, ← hsub, formatX_fields]

end FixedBits

/-- A word with the fixed bits of a row is the word of the instruction the row builds from it (R94, R95). -/
theorem encode_build {i : Instr} {w : Word} (h : w &&& i.row.mask = i.row.pattern) : encode (i.row.build w) = w := by
  cases i with
  | cls | ret => exact h.symm.trans (and_FFFF w)
  | jp nnn | call nnn | ldI nnn | jpV0 nnn => exact formatNNN_of_fixedBits h
  | seImm x kk | sneImm x kk | ldImm x kk | addImm x kk | rnd x kk => exact formatXKK_of_fixedBits h
  | drw x y n => exact formatXYN_of_fixedBits h
  | seReg x y | ldReg x y | orReg x y | andReg x y | xorReg x y | addReg x y | subReg x y | shr x y | subnReg x y
  | shl x y | sneReg x y => exact formatXY_of_fixedBits h
  | skp x | sknp x | ldVxDt x | ldVxK x | ldDtVx x | ldStVx x | addI x | ldF x | ldB x | storeRegs x | loadRegs x =>
    exact formatX_of_fixedBits h

theorem nField_le (w : Word) : nField w ≤ 15 := by
  rw [nField_eq]; omega

/-- A row builds well-formed instructions only: the row count of DRW is a 4-bit field (R93). -/
theorem build_wellFormed (i : Instr) (w : Word) : (i.row.build w).wellFormed = true := by
  cases i with
  | drw x y n => exact decide_eq_true (nField_le w)
  | _ => rfl

/-- Settles O3: a decoded instruction is what its row builds from the word. -/
theorem encodeOfDecodedWord : Obligations.EncodeOfDecodedWord := by
  intro w i h
  obtain ⟨hbits, hbuild⟩ := decode_eq_instr_iff.1 h
  rw [← hbuild]
  exact ⟨build_wellFormed i w, encode_build hbits⟩

/-! ## The unknown words -/

/-- Of op 0 only two words are instructions, of op 5 those with function code 0, and of the other ops up to 7 all
(R94, R96). -/
theorem unselected_rows0to7_iff (w : Word) : (∀ r ∈ rows0to7, r.selects w = false) ↔
    (w.toNat / 4096 = 0 ∧ w.toNat ≠ 0x00E0 ∧ w.toNat ≠ 0x00EE) ∨ (w.toNat / 4096 = 5 ∧ w.toNat % 16 ≠ 0) ∨
    8 ≤ w.toNat / 4096 := by
  simp [rows0to7, Row.selects, and_FFFF_eq_iff, and_F000_eq_iff, and_F00F_eq_iff]
  omega

theorem unselected_rows8_iff (w : Word) : (∀ r ∈ rows8, r.selects w = false) ↔
    (w.toNat / 4096 = 8 ∧ w.toNat % 16 ∈ [8, 9, 0xA, 0xB, 0xC, 0xD, 0xF]) ∨ w.toNat / 4096 ≠ 8 := by
  simp [rows8, Row.selects, and_F00F_eq_iff]
  omega

theorem unselected_rows9toE_iff (w : Word) : (∀ r ∈ rows9toE, r.selects w = false) ↔
    (w.toNat / 4096 = 9 ∧ w.toNat % 16 ≠ 0) ∨ (w.toNat / 4096 = 0xE ∧ w.toNat % 256 ∉ [0x9E, 0xA1]) ∨
    w.toNat / 4096 < 9 ∨ w.toNat / 4096 = 0xF := by
  simp [rows9toE, Row.selects, and_F000_eq_iff, and_F00F_eq_iff, and_F0FF_eq_iff]
  omega

theorem unselected_rowsF_iff (w : Word) : (∀ r ∈ rowsF, r.selects w = false) ↔
    (w.toNat / 4096 = 0xF ∧ w.toNat % 256 ∉ [0x07, 0x0A, 0x15, 0x18, 0x1E, 0x29, 0x33, 0x55, 0x65]) ∨
    w.toNat / 4096 ≠ 0xF := by
  simp [rowsF, Row.selects, and_F0FF_eq_iff]
  omega

/-- Settles O4: no row of any of the table's four parts selects the word, said for each op in turn. -/
theorem unknownWordsAreTheTables : Obligations.UnknownWordsAreTheTables := by
  intro w
  have hop : w.toNat / 4096 < 16 := by omega
  simp only [decode_unknown_iff, opcodeTable, BitVec.toNat_ne, List.forall_mem_append, unselected_rows0to7_iff,
    unselected_rows8_iff, unselected_rows9toE_iff, unselected_rowsF_iff]
  interval_cases w.toNat / 4096 <;> simp

/-- Settles O1: each word evaluated. -/
theorem writtenWordsDecode : Obligations.WrittenWordsDecode := by
  unfold Obligations.WrittenWordsDecode
  decide

end Sys2Proof

namespace Sys2Proof.Machine

/-! ## SHR and SHL -/

theorem lowBitFlag_toNat (a : Byte) : (lowBitFlag a).toNat = a.toNat % 2 := by
  simp [lowBitFlag, Nat.and_one_is_mod]

theorem highBitFlag_toNat (a : Byte) : (highBitFlag a).toNat = a.toNat / 128 := by
  simp [highBitFlag, Nat.shiftRight_eq_div_pow]

/-- Settles O30: the flag is written before the shifted value, so with x = F the shifted value stays. -/
theorem shiftsSetTheBitShiftedOut : Obligations.ShiftsSetTheBitShiftedOut := by
  refine ⟨⟨encoded_of_row (k := 15) (by decide), encoded_of_row (k := 17) (by decide)⟩, fun x y s => ⟨?_, ?_⟩⟩
  · refine ⟨_, exec_shr s x y, rfl, ?_, fun hx => ?_, fun y' => exec_shr s x y'⟩
    · simp [Nat.shiftRight_eq_div_pow]
    · simp [State.setReg_reg_other _ hx.symm, lowBitFlag_toNat]
  · refine ⟨_, exec_shl s x y, rfl, ?_, fun hx => ?_, fun y' => exec_shl s x y'⟩
    · simp [Nat.shiftLeft_eq]
    · simp [State.setReg_reg_other _ hx.symm, highBitFlag_toNat]

end Sys2Proof.Machine

namespace Sys2Proof

/-! ## The unknown words of op 5 and op 9 -/

theorem and_000F_toNat (w : Word) : (w &&& 0x000F#16).toNat = w.toNat % 16 :=
  Nat.and_two_pow_sub_one_eq_mod w.toNat 4

/-- The words 5xyN and 9xyN with a function code other than 0 are unknown (R96, R126, R127). -/
theorem decode_5xyN_9xyN_unknown {w : Word} (hop : w &&& 0xF000 = 0x5000 ∨ w &&& 0xF000 = 0x9000)
    (hn : w &&& 0x000F ≠ 0) : decode w = .unknown := by
  have hn' : w.toNat % 16 ≠ 0 := fun h => hn (BitVec.eq_of_toNat_eq ((and_000F_toNat w).trans h))
  refine (unknownWordsAreTheTables w).2 ?_
  rcases hop with h | h
  · exact .inr (.inl ⟨Nat.eq_of_mul_eq_mul_right (by decide) (and_F000_eq_iff.1 h), hn'⟩)
  · exact .inr (.inr (.inr (.inl ⟨Nat.eq_of_mul_eq_mul_right (by decide) (and_F000_eq_iff.1 h), hn'⟩)))

end Sys2Proof

namespace Sys2Proof.Machine

/-! ## The step runs the decoded instruction -/

/-- Where the front end lets an instruction through, the `step()` transaction is its meaning (R120). -/
theorem stepTransaction_of_front_run {s : State} {i : Instr} (h : s.front = .run i) : stepTransaction s = exec i s := by
  rw [stepTransaction, h]

/-- A step at a word that decodes is the decoded instruction's meaning (R120). -/
theorem step_of_atWord {s : State} {w : Word} {i : Instr} (hw : s.AtWord w) (hd : decode w = .instr i) :
    step s = exec i s := by
  obtain ⟨hsch, hl, hr, hf⟩ := hw
  rw [step_of_schedule_nil hsch, stepTransaction_of_front_run (front_run_iff.2 ⟨hl, hr, w, hf, hd⟩)]

/-- Settles O5: with nothing scheduled the front end lets the decoded instruction through; a scheduled group runs first. -/
theorem stepRunsDecodedInstruction : Obligations.StepRunsDecodedInstruction :=
  ⟨fun _ _ _ => step_of_atWord, fun _ _ _ h => congrArg stepTransaction (hostPhase_cons h)⟩

/-! ## The PC after an instruction -/

/-- Settles O10: an instruction halts the state before it, or leaves its shape's PC. -/
theorem pcFollowsTheOutcome : Obligations.PcFollowsTheOutcome := fun _ _ _ h =>
  (exec_cases h).imp_right ExecShape.pcAfter

/-! ## Jumps -/

/-- Writing PC with its own value changes nothing. -/
@[simp] theorem State.setPc_pc_self (s : State) : s.setPc s.pc = s := rfl

/-- A jump to its own address changes nothing (R122). -/
theorem exec_jp_self {nnn : Addr12} {s : State} (h : zext16 nnn = s.pc) : exec (.jp nnn) s = .next s := by
  rw [exec_jp, h, State.setPc_pc_self]

/-- Settles O18: 0xFFF is the first target no fetch reaches, and a target equal to PC is a jump to itself. -/
theorem jumpSetsPc : Obligations.JumpSetsPc := by
  refine ⟨encoded_of_row (k := 2) (by decide), fun nnn s => ?_⟩
  have hpc : (s.setPc (zext16 nnn)).pc.toNat = nnn.toNat := zext16_toNat nnn
  refine ⟨_, exec_jp s nnn, hpc, rfl, fun _ => rfl, fun h => fetch_error ?_, fun h => ?_⟩
  · rw [hpc, h]; decide
  · have hself : zext16 nnn = s.pc := BitVec.eq_of_toNat_eq (hpc.trans h)
    rw [hself, State.setPc_pc_self]

/-- Settles O19: the 16-bit sum does not wrap, and from 0xFFF on it is past the fetch bound. -/
theorem offsetJumpSetsPc : Obligations.OffsetJumpSetsPc := by
  refine ⟨encoded_of_row (k := 20) (by decide), fun nnn s => ?_⟩
  have hpc : (s.setPc (offsetTarget nnn (s.reg 0))).pc.toNat = nnn.toNat + (s.reg 0).toNat := offsetTarget_toNat nnn _
  exact ⟨_, exec_jpV0 s nnn, hpc, fun h => fetch_error (hpc ▸ Nat.succ_le_succ h)⟩

/-! ## A finished program -/

/-- A finished program is Running at a jump word whose target is PC (R292, D30). -/
theorem finished_iff {s : State} : s.finished = true ↔
    s.status = .running ∧ ∃ w, s.fetch = .ok w ∧ w &&& 0xF000 = 0x1000 ∧ zext16 (nnnField w) = s.pc := by
  unfold State.finished
  cases s.fetch <;> simp [zext16]

/-- Settles O51: the step runs a jump to its own address. -/
theorem finishedProgramStaysPut : Obligations.FinishedProgramStaysPut := by
  intro s hsch hl hfin
  obtain ⟨hr, w, hf, hop, htarget⟩ := finished_iff.1 hfin
  rw [step_of_atWord ⟨hsch, hl, hr, hf⟩ (jumpSetsPc.1 w hop), exec_jp_self htarget]

/-! ## The comparing skips -/

/-- Settles O20: each skip writes PC alone, by its condition. -/
theorem comparisonsSkip : Obligations.ComparisonsSkip := by
  refine ⟨⟨encoded_of_row (k := 4) (by decide), encoded_of_row (k := 5) (by decide), encoded_of_row (k := 6) (by decide),
    encoded_of_row (k := 18) (by decide), fun _ => decode_5xyN_9xyN_unknown⟩, fun x y kk s => ⟨?_, ?_, ?_, ?_⟩⟩
  · exact ⟨_, exec_seImm s x kk, rfl, fun _ => rfl, rfl⟩
  · exact ⟨_, exec_sneImm s x kk, rfl, fun _ => rfl, rfl⟩
  · exact ⟨_, exec_seReg s x y, rfl, fun _ => rfl, rfl⟩
  · exact ⟨_, exec_sneReg s x y, rfl, fun _ => rfl, rfl⟩

/-! ## A CALL and its RET -/

/-- Settles O24: the entry the CALL pushed is the one the RET pops. -/
theorem returnGoesPastItsCall : Obligations.ReturnGoesPastItsCall := by
  intro nnn s t u hsp hcall hstack hdepth
  obtain ⟨k, hk⟩ : ∃ k : Fin 16, k.val = s.sp.val := ⟨⟨s.sp.val, hsp⟩, rfl⟩
  obtain ⟨t', ht', -, htsp, hentry, -⟩ := (callPushesItsOwnAddress.2 nnn s).1 k hk
  obtain rfl : t' = t := by simpa [ht'] using hcall
  have hpushed : u.stackEntry k = s.pc := by rw [← hentry, State.stackEntry, State.stackEntry, hstack]
  obtain ⟨r, hr, hpc, hrsp, hframe⟩ := (retPopsAndAddsTwo.2 u).1 k (by rw [hdepth, htsp, hk])
  exact ⟨r, hr, by rw [hpc, hpushed], Fin.ext (hrsp.trans hk), hframe .status (by simp)⟩

end Sys2Proof.Machine

namespace Sys2Proof.Machine

/-! ## Register loads and bitwise operations -/

/-- Settles O25: each writes its destination and PC, so VF changes only as the destination. -/
theorem loadsAndImmediateAdd : Obligations.LoadsAndImmediateAdd := by
  refine ⟨⟨encoded_of_row (k := 7) (by decide), encoded_of_row (k := 8) (by decide), encoded_of_row (k := 9) (by decide)⟩,
    fun x y kk s => ⟨?_, ?_, ?_⟩⟩
  · exact ⟨_, exec_ldImm s x kk, State.setReg_reg_same s x _, rfl, rfl, fun hx => State.setReg_reg_other s hx.symm _⟩
  · refine ⟨_, exec_addImm s x kk, ?_, rfl, rfl, fun hx => State.setReg_reg_other s hx.symm _⟩
    rw [State.setPc_reg, State.setReg_reg_same, BitVec.toNat_add]
  · exact ⟨_, exec_ldReg s x y, State.setReg_reg_same s x _, rfl, rfl, fun hx => State.setReg_reg_other s hx.symm _⟩

/-- Settles O26: each writes its destination and PC, and a bit of the destination is the operation on the operands' bits. -/
theorem bitwiseOperations : Obligations.BitwiseOperations := by
  refine ⟨⟨encoded_of_row (k := 10) (by decide), encoded_of_row (k := 11) (by decide),
    encoded_of_row (k := 12) (by decide)⟩, fun x y s => ⟨?_, ?_, ?_⟩⟩
  · refine ⟨_, exec_orReg s x y, rfl, fun hx => State.setReg_reg_other s hx.symm _, fun k _ => ?_⟩
    rw [State.setPc_reg, State.setReg_reg_same, BitVec.getLsbD_or]
  · refine ⟨_, exec_andReg s x y, rfl, fun hx => State.setReg_reg_other s hx.symm _, fun k _ => ?_⟩
    rw [State.setPc_reg, State.setReg_reg_same, BitVec.getLsbD_and]
  · refine ⟨_, exec_xorReg s x y, rfl, fun hx => State.setReg_reg_other s hx.symm _, fun k _ => ?_⟩
    rw [State.setPc_reg, State.setReg_reg_same, BitVec.getLsbD_xor]

/-! ## ADD, SUB and SUBN -/

theorem carryFlag_eq (a b : Byte) : carryFlag a b = if a.toNat + b.toNat > 255 then 1 else 0 := by
  simp [carryFlag, flagByte]

theorem noBorrowFlag_eq (a b : Byte) : noBorrowFlag a b = if a.toNat > b.toNat then 1 else 0 := by
  simp [noBorrowFlag, flagByte]

/-- Doubling a byte carries exactly where its bit 7 is set (R157). -/
theorem carryFlag_self (a : Byte) : carryFlag a a = if a.getLsbD 7 then 1 else 0 := by
  have hbit : a.getLsbD 7 = decide (128 ≤ a.toNat) := BitVec.msb_eq_decide a
  have hcarry : a.toNat + a.toNat > 255 ↔ 128 ≤ a.toNat := by omega
  simp only [carryFlag_eq, hcarry, hbit, decide_eq_true_eq]

/-- The difference of bytes, with the borrow added to the minuend (R158, R160). -/
theorem byte_sub_toNat (a b : Byte) : (a - b).toNat = (a.toNat + 256 - b.toNat) % 256 := by
  have := b.isLt
  rw [BitVec.toNat_sub]
  omega

/-- A flag written first is left in VF where the result goes to another register (R150). -/
theorem flagThenReg_flag (s : State) {x : RegIdx} (hx : x ≠ vf) (flag b : Byte) :
    ((s.setReg vf flag).setReg x b).reg vf = flag := by
  rw [State.setReg_reg_other _ hx.symm, State.setReg_reg_same]

/-- Settles O27: the carry is written before the sum, so with x = F the sum stays. -/
theorem addSetsCarryThenSum : Obligations.AddSetsCarryThenSum := by
  refine ⟨encoded_of_row (k := 13) (by decide), fun x y s => ⟨_, exec_addReg s x y, rfl, rfl, ?_, fun hx => ?_, ?_⟩⟩
  · rw [State.setPc_reg, State.setReg_reg_same, BitVec.toNat_add]
  · rw [State.setPc_reg, flagThenReg_flag s hx, carryFlag_eq]
  · rintro rfl hx
    rw [State.setPc_reg, flagThenReg_flag s hx, carryFlag_self]

/-- Settles O28: the flag is written before the difference, so with x = F the difference stays. -/
theorem subSetsNoBorrowThenDifference : Obligations.SubSetsNoBorrowThenDifference := by
  refine ⟨encoded_of_row (k := 14) (by decide), fun x y s => ⟨_, exec_subReg s x y, rfl, rfl, ?_, fun hx => ?_⟩⟩
  · rw [State.setPc_reg, State.setReg_reg_same, byte_sub_toNat]
  · rw [State.setPc_reg, flagThenReg_flag s hx, noBorrowFlag_eq]

/-- Settles O29: the flag of the original operands is written after the difference, so it stays with x = F too. -/
theorem subnComparesWithTheOriginal : Obligations.SubnComparesWithTheOriginal := by
  refine ⟨encoded_of_row (k := 16) (by decide), fun x y s => ⟨_, exec_subnReg s x y, rfl, rfl, fun hx => ?_, ?_⟩⟩
  · rw [State.setPc_reg, State.setReg_reg_other _ hx, State.setReg_reg_same, byte_sub_toNat]
  · rw [State.setPc_reg, State.setReg_reg_same, noBorrowFlag_eq]

/-! ## RND -/

/-- An injected byte is the one the provider answers next (R287). -/
theorem nextRandom_of_injected {s : State} {b : Byte} {rest : List Byte} (h : s.provided = b :: rest) :
    s.nextRandom = b := by
  rw [State.nextRandom, h, List.headD_cons]

/-- Where nothing is injected the provider answers the free value (R287; log 2). -/
theorem nextRandom_of_not_injected {s : State} (h : s.provided = []) : s.nextRandom = Config.randomByte s.draws := by
  rw [State.nextRandom, h, List.headD_nil]

/-- Settles O31: RND writes the provider's next byte under the mask, and takes it off the provider. -/
theorem rndMasksOneDraw : Obligations.RndMasksOneDraw := by
  refine ⟨encoded_of_row (k := 21) (by decide), fun x kk s => ?_⟩
  have hreg : ((s.afterDraw.setReg x (s.nextRandom &&& kk)).setPc (s.pc + 2)).reg x = s.nextRandom &&& kk :=
    State.setReg_reg_same _ x _
  refine ⟨_, exec_rnd s x kk, rfl, fun b rest h => ⟨?_, ?_⟩, fun h => ⟨?_, ?_⟩, rfl, fun h => ?_,
    ExecShape.frame (i := .rnd x kk) ⟨_, rfl⟩⟩
  · rw [hreg, nextRandom_of_injected h]
  · exact congrArg List.tail h
  · rw [hreg, nextRandom_of_not_injected h]
  · exact congrArg List.tail h
  · rw [hreg, h]
    exact BitVec.and_zero

end Sys2Proof.Machine

namespace Sys2Proof.Machine

/-! ## Block moves there and back -/

/-- Settles O40: the store leaves I and the registers, so the load reads the stored block; above `Vx` neither writes. -/
theorem storeThenLoadGivesRegistersBack : Obligations.StoreThenLoadGivesRegistersBack := by
  intro x s hwf hb
  obtain ⟨t, ht, hpc, hstored, hframe⟩ := (blockStoreWritesRegisters.2 x s hwf).1 hb
  have hi : t.i = s.i := hframe .i (by simp)
  obtain ⟨u, hu, hpc', hloaded, hframe'⟩ := (blockLoadReadsRegisters.2 x t).1 (hi ▸ hb)
  refine ⟨t, u, ht, hu, fun k => ?_, (hframe' .i (by simp)).trans hi, ?_,
    (hframe' .status (by simp)).trans (hframe .status (by simp))⟩
  · by_cases hk : k ≤ x
    · rw [hloaded k hk, hi, hstored k hk]
    · have hkept : u.reg k = t.reg k := hframe' (.reg k) (by simpa using hk)
      exact hkept.trans (hframe (.reg k) (by simp))
  · rw [hpc', hpc, BitVec.add_assoc]
    rfl

/-! ## The index register -/

/-- Five times a byte fits in 16 bits, so a glyph address does not wrap (R192). -/
@[simp] theorem glyphAddress_toNat (a : Byte) : (glyphAddress a).toNat = a.toNat * 5 := by
  have := a.isLt
  rw [glyphAddress, BitVec.toNat_ofNat, Nat.mod_eq_of_lt (by omega)]

/-- The index sum as a number, modulo 65536 (R191, D11). -/
@[simp] theorem indexSum_toNat (i : Word) (a : Byte) : (indexSum i a).toNat = (i.toNat + a.toNat) % 65536 :=
  BitVec.toNat_ofNat ..

/-- Settles O34: each writes I and PC alone; from 16 on, five times a byte is 80 to 1275. -/
theorem indexLoads : Obligations.IndexLoads := by
  refine ⟨⟨encoded_of_row (k := 19) (by decide), encoded_of_row (k := 30) (by decide)⟩, fun nnn x s => ⟨?_, ?_⟩⟩
  · exact ⟨_, exec_ldI s nnn, zext16_toNat nnn, rfl, rfl, fun _ => rfl⟩
  · have hi : ((s.setI (glyphAddress (s.reg x))).setPc (s.pc + 2)).i.toNat = (s.reg x).toNat * 5 := glyphAddress_toNat _
    have hlt := (s.reg x).isLt
    exact ⟨_, exec_ldF s x, hi, rfl, rfl, fun _ => rfl, fun h16 => by omega⟩

/-- Settles O35: the sum goes to I alone, so VF stays. -/
theorem indexAddWraps : Obligations.IndexAddWraps :=
  ⟨encoded_of_row (k := 29) (by decide), fun x s => ⟨_, exec_addI s x, rfl, indexSum_toNat _ _, rfl, rfl⟩⟩

end Sys2Proof.Machine

namespace Sys2Proof.Machine

/-! ## A sprite drawn twice -/

section DrawnTwice

variable (s : State) {x y : RegIdx} {n : Nat}

/-- What a draw leaves does not depend on PC, nor on VF where VF holds no coordinate. -/
theorem drawn_setReg_vf_setPc (hx : x ≠ vf) (hy : y ≠ vf) (v : Byte) (pc : Word) :
    drawn ((s.setReg vf v).setPc pc) x y n = drawn s x y n := by
  simp [drawn, spriteRows, State.setReg_reg_other, hx, hy]

/-- A pixel of the box is XORed with one sprite bit twice, and any other is left alone twice (R221). -/
theorem drawn_twice_pixel (hn : n ≤ 15) (a b : Nat) :
    (drawn (s.setFb (drawn s x y n).1) x y n).1.pixel a b = s.fb.pixel a b := by
  by_cases hbox : ∃ r c, r < n ∧ c < 8 ∧ a % 64 = (originX (s.reg x) + c) % 64 ∧ b % 32 = (originY (s.reg y) + r) % 32
  · obtain ⟨r, c, hr, hc, ha, hb⟩ := hbox
    have first := drawn_pixel_inside s x y hn hr hc
    have second := drawn_pixel_inside (s.setFb (drawn s x y n).1) x y hn hr hc
    simp only [State.setFb_reg, State.setFb_fb, State.setFb_mem, State.setFb_i] at second
    rw [pixel_congr _ ha hb, pixel_congr s.fb ha hb, second, first, Bool.xor_assoc, Bool.xor_self, Bool.xor_false]
  · have hout : ∀ r c, r < n → c < 8 →
        ¬ (a % 64 = (originX (s.reg x) + c) % 64 ∧ b % 32 = (originY (s.reg y) + r) % 32) :=
      fun r c hr hc h => hbox ⟨r, c, hr, hc, h⟩
    have first := drawn_pixel_outside s x y hout
    have second := drawn_pixel_outside (s.setFb (drawn s x y n).1) x y hout
    exact second.trans first

/-- The second draw finds a lit pixel exactly where the first XORed two different bits (R221, R223). -/
theorem drawn_twice_hit (hn : n ≤ 15) : (drawn (s.setFb (drawn s x y n).1) x y n).2 = true ↔
    ∃ r c, r < n ∧ c < 8 ∧ s.fb.pixel (originX (s.reg x) + c) (originY (s.reg y) + r) ≠
      (s.mem.read (s.i.toNat + r)).getLsbD (7 - c) := by
  simp only [drawn_hit _ x y hn, State.setFb_reg, State.setFb_fb]
  refine exists_congr fun r => exists_congr fun c => and_congr_right fun hr => and_congr_right fun hc => ?_
  rw [drawn_pixel_inside s x y hn hr hc, Bool.xor_iff_ne]

end DrawnTwice

/-- Settles O44: the first draw moves neither the box nor the sprite, so the second XORs the same bits again. -/
theorem drawingTwiceGivesPixelsBack : Obligations.DrawingTwiceGivesPixelsBack := by
  intro x y n s hn hx hy hb
  refine ⟨_, _, exec_drw hb, exec_drw hb, fun a b => ?_, ?_⟩
  · rw [State.setPc_fb, State.setReg_fb, State.setFb_fb, drawn_setReg_vf_setPc _ hx hy]
    exact drawn_twice_pixel s hn a b
  · rw [State.setPc_reg, State.setReg_reg_same, flagByte_eq_one, drawn_setReg_vf_setPc _ hx hy, drawn_twice_hit s hn]
    simp only [originX, originY, pixel_mod]

end Sys2Proof.Machine

namespace Sys2Proof.Machine

/-! ## The key skips -/

/-- Settles O45: a key index of at most 15 passes the check, and then only PC is written. -/
theorem keySkipsReadTheMask : Obligations.KeySkipsReadTheMask := by
  refine ⟨⟨encoded_of_row (k := 23) (by decide), encoded_of_row (k := 24) (by decide)⟩,
    fun x s => ⟨fun hx => ⟨?_, ?_⟩, fun hx => ⟨exec_skp_halts hx, exec_sknp_halts hx⟩⟩⟩
  · exact ⟨_, exec_skp hx, (OnlyChanges.refl _ s).setPc rfl, rfl⟩
  · exact ⟨_, exec_sknp hx, (OnlyChanges.refl _ s).setPc rfl, rfl⟩

/-! ## The key wait -/

/-- The lowest key down is the one reported (R243, D20). -/
theorem firstDown_eq_some {s : State} {k : Fin 16} (hk : s.keyDown k = true)
    (hlow : ∀ j : Fin 16, j < k → s.keyDown j = false) : s.firstDown = some k.val := by
  refine List.find?_range_eq_some.2 ⟨hk, List.mem_range.2 k.isLt, fun j hj => ?_⟩
  simpa using hlow ⟨j, hj.trans k.isLt⟩ hj

/-- Settles O46: the wait ends at the lowest key down, whose index fits a byte. -/
theorem keyWaitTakesTheLowestKey : Obligations.KeyWaitTakesTheLowestKey := by
  refine ⟨encoded_of_row (k := 26) (by decide), fun x s => ⟨fun h => ?_, fun k hk hlow => ?_⟩⟩
  · exact exec_ldVxK_waits ((firstDown_none_iff s).2 h)
  · refine ⟨_, exec_ldVxK (firstDown_eq_some hk hlow), ?_, rfl, ExecShape.frame (i := .ldVxK x) (.inr ⟨_, rfl⟩)⟩
    rw [State.setPc_reg, State.setReg_reg_same, BitVec.toNat_ofNat, Nat.mod_eq_of_lt (by omega)]

/-! ## The timer moves -/

/-- The tone sounds exactly while the sound timer is not 0 (R281). -/
theorem tone_iff (s : State) : s.tone = true ↔ s.st ≠ 0 := decide_eq_true_iff

/-- A delay timer at 0 stays there (R279). -/
theorem tickTimers_dt_of_zero {s : State} (h : s.dt = 0) : s.tickTimers.dt = 0 := by
  rw [State.tickTimers, State.setSt_dt, State.setDt_dt, h]
  rfl

/-- Settles O47: each moves one byte and writes PC; the tone and the tick read the timer just written. -/
theorem timerMoves : Obligations.TimerMoves := by
  refine ⟨⟨encoded_of_row (k := 25) (by decide), encoded_of_row (k := 27) (by decide),
    encoded_of_row (k := 28) (by decide)⟩, fun x s => ⟨?_, ?_, ?_⟩⟩
  · exact ⟨_, exec_ldVxDt s x, State.setReg_reg_same s x _, rfl, rfl, fun hx => State.setReg_reg_other s hx.symm _⟩
  · exact ⟨_, exec_ldDtVx s x, rfl, rfl, rfl, fun _ => rfl, fun h => tickTimers_dt_of_zero h⟩
  · exact ⟨_, exec_ldStVx s x, rfl, rfl, rfl, fun _ => rfl, tone_iff _⟩

end Sys2Proof.Machine

namespace Sys2Proof.Machine

/-! ## Halts -/

/-- Status is no instruction's place to write: it changes only by a halt (R12, R272). -/
theorem not_writes_status (i : Instr) : ¬ Writes i .status := by
  cases i <;> simp [Writes]

/-- An instruction leaves Status alone, or is the halt of the state before it with the instruction's own cause (R272, D9). -/
theorem exec_status_or_halts {i : Instr} {s t : State} (h : exec i s = .next t) :
    t.status = s.status ∨ ∃ c, haltCause i = some c ∧ t = s.setStatus (.halted c) := by
  rcases exec_cases h with ⟨c, rfl⟩ | hs
  · refine (exec_status h).imp_right fun ⟨c', hc', e⟩ => ?_
    cases e
    exact ⟨c, hc', rfl⟩
  · exact .inl (hs.frame .status (not_writes_status i))

/-- The instructions that can halt, by cause (R271). -/
theorem haltCause_eq_some {i : Instr} {c : Cause} (h : haltCause i = some c) :
    (c = .outOfBounds ∧ ((∃ x y n, i = .drw x y n) ∨ ∃ x, i = .ldB x ∨ i = .storeRegs x ∨ i = .loadRegs x)) ∨
      (c = .stackOverflow ∧ ∃ nnn, i = .call nnn) ∨ (c = .stackUnderflow ∧ i = .ret) ∨
      (c = .badKeyIndex ∧ ∃ x, i = .skp x ∨ i = .sknp x) := by
  cases i with
  | drw x y n => cases h; exact .inl ⟨rfl, .inl ⟨x, y, n, rfl⟩⟩
  | ldB x => cases h; exact .inl ⟨rfl, .inr ⟨x, .inl rfl⟩⟩
  | storeRegs x => cases h; exact .inl ⟨rfl, .inr ⟨x, .inr (.inl rfl)⟩⟩
  | loadRegs x => cases h; exact .inl ⟨rfl, .inr ⟨x, .inr (.inr rfl)⟩⟩
  | call nnn => cases h; exact .inr (.inl ⟨rfl, nnn, rfl⟩)
  | ret => cases h; exact .inr (.inr (.inl ⟨rfl, rfl⟩))
  | skp x => cases h; exact .inr (.inr (.inr ⟨rfl, x, .inl rfl⟩))
  | sknp x => cases h; exact .inr (.inr (.inr ⟨rfl, x, .inr rfl⟩))
  | _ => cases h

/-- Settles O9: `exec` is total, and where it does not leave Status alone it is the halt with the instruction's cause. -/
theorem haltsArePreciseAndNamed : Obligations.HaltsArePreciseAndNamed := by
  intro i s
  obtain ⟨t, ht, -⟩ := exec_total i s
  exact ⟨t, ht, (exec_status_or_halts ht).imp_right fun ⟨c, hc, e⟩ => ⟨c, e, haltCause_eq_some hc⟩⟩

/-! ## The tick -/

/-- Settles O49: each timer is counted down on its own. -/
theorem tickCountsBothTimersDown : Obligations.TickCountsBothTimersDown := by
  have hcount (b : Byte) : (countDown b).toNat = if b.toNat > 0 then b.toNat - 1 else 0 := by
    rw [countDown_toNat]; split <;> omega
  exact fun s => ⟨hcount s.dt, hcount s.st, ((OnlyChanges.refl _ s).setDt (.inl rfl)).setSt (.inr rfl)⟩

end Sys2Proof.Machine

namespace Sys2Proof.Machine

/-! ## Before the first load, and right after reset -/

/-- A refusal of the front end is the answer of the `step()` transaction (R323). -/
theorem stepTransaction_of_front_refuse {s : State} {r : Refusal} (h : s.front = .refuse r) :
    stepTransaction s = .refused r := by
  rw [stepTransaction, h]

/-- Settles O8: nothing is scheduled before the step, and the front end refuses a block that never loaded. -/
theorem neverLoadedBlockRefusesToStep : Obligations.NeverLoadedBlockRefusesToStep := by
  intro s hsch hl
  rw [step_of_schedule_nil hsch]
  exact stepTransaction_of_front_refuse (front_neverLoaded hl)

/-- Reset meets the invariant: memory lists no cell, PC is PROG_BASE, the stack is zero, Status is Running (R321). -/
theorem resetWith_inv (g : Vector Byte Config.glyphSize) : (State.resetWith g).Inv := by
  refine ⟨resetWith_mem_wf g, ?pc, fun k => ?stack, nofun⟩
  case pc => exact (by decide : (0x200 : Word).toNat ≤ maxPc)
  case stack => simp

/-- Settles O13: the default glyph table is one of the tables. -/
theorem resetMeetsTheInvariant : Obligations.ResetMeetsTheInvariant :=
  ⟨resetWith_inv Config.glyphTable, resetWith_inv⟩

end Sys2Proof.Machine
